-- ==== Sys2Proof/Word.lean ====
section
/-! DEFINITION. The widths the spec gives its values (spec/00_scope.md R4, spec/10_state.md R11).
Every value of this block is unsigned; a name is given only to the widths that several rules share. -/

namespace Sys2Proof

/-- One channel value, one payload byte, one command word, one register number: 8 bits
(R4 `CH_VALUE_BITS`, R60). -/
abbrev Byte := BitVec 8

/-- `DIM_BITS = 16` (R4): `W`, `H`, `ROW`, `COL`, and the nested dimensions and `WLIM` (R11). -/
abbrev Dim := BitVec 16

/-- `CH_BITS = 8` (R4): `C` and `CHAN`. -/
abbrev ChanCount := BitVec 8

/-- The 64-bit registers `LENLIM`, `FLD`, `LEN` (R11) and the value on the register port (R22). -/
abbrev Quad := BitVec 64

end Sys2Proof
end

