-- ==== Sys2Proof/Config.lean ====
section
/-! DEFINITION. What the spec leaves open for the whole machine: the two memory spaces and the one
free value, the contents of a byte nobody has written. The two memory sizes are open as well; they are
fields of `State` (notes/assumptions/2.md). -/

namespace Sys2Proof

/-- The two byte memories of R50; they do not overlap. -/
inductive Space where
  /-- the carrier's channel values (R40) -/
  | raster
  /-- the payload an encode takes or a decode returns (R44) -/
  | payload
  deriving DecidableEq, Repr

/-- R171: "a model must treat a byte that neither the host nor the engine has written since power-on as
an arbitrary 8-bit value, not as zero". A free value: no body, so nothing can be proved of it
(notes/assumptions/1.md). It is what an unlisted address of a space reads as. -/
opaque Config.powerOnByte : Space → Nat → Byte

end Sys2Proof
end

