-- ==== Sys2Proof/Syntax.lean ====
section
/-! DEFINITION. The command set: one constructor of `Instr` per row of spec/opcode_table.json
(spec/30_encoding.md R62, R63, R66), and the parts a command word is made of. -/

namespace Sys2Proof

/-- The 14 rows of the opcode table. The operand types leave no illegal operand: `v` is one bit (R64),
and the three widths of `WFLD` and `RFLD` are rows of their own (R66). -/
inductive Instr where
  /-- `CINIT`, word 0x10, R86 -/
  | cinit
  /-- `WBIT v`, words 0x20 and 0x21, R87 -/
  | wbit (v : Bool)
  /-- `RBIT`, word 0x30, R88 -/
  | rbit
  /-- `WFLD 8`, word 0x40, R102 -/
  | wfld8
  /-- `WFLD 16`, word 0x41, R102 -/
  | wfld16
  /-- `WFLD 64`, word 0x42, R102 -/
  | wfld64
  /-- `RFLD 8`, word 0x50, R103 -/
  | rfld8
  /-- `RFLD 16`, word 0x51, R103 -/
  | rfld16
  /-- `RFLD 64`, word 0x52, R103 -/
  | rfld64
  /-- `ENCB`, word 0x80, R111 -/
  | encb
  /-- `DECB`, word 0x90, R112 -/
  | decb
  /-- `ENCI`, word 0xA0, R121 -/
  | enci
  /-- `DECI`, word 0xB0, R122 -/
  | deci
  /-- `CLRF`, word 0xC0, R130 -/
  | clrf
  deriving DecidableEq, Repr

/-- The three formats of R62. -/
inductive Format where
  /-- `bits[3:0]` must be 0000 -/
  | z
  /-- `bits[3:1]` must be 000, `bits[0]` is the bit to write -/
  | b
  /-- `bits[3:2]` must be 00, `bits[1:0]` is the width code -/
  | f
  deriving DecidableEq, Repr

/-- The ten operation codes of R63. -/
inductive Operation where
  | cinit | wbit | rbit | wfld | rfld | encb | decb | enci | deci | clrf
  deriving DecidableEq, Repr

/-- A command word taken apart, its operand field not yet checked (R62). -/
structure RawCommand where
  operation : Operation
  /-- `bits[3:0]` of the word -/
  arg : BitVec 4
  deriving DecidableEq, Repr

/-- Why a command word is illegal (R65). The machine does not record which (R142). -/
inductive IllegalWord where
  /-- one of the six operation codes R63 does not assign -/
  | unassignedOperation
  /-- a must-be-zero bit of the format is not zero -/
  | nonzeroBits
  /-- format F with width code 11 -/
  | reservedWidth
  deriving DecidableEq, Repr

end Sys2Proof
end

