-- ==== Sys2Proof/WellFormed.lean ====
section
/-! DEFINITION. Which terms of the syntax are commands: the must-be-zero and width-code checks of R62
on a `RawCommand`, and `Instr`, whose operand types already admit nothing illegal. Written apart from the
decoder: that the decoder accepts exactly the well-formed raw commands is a statement, not a definition. -/

namespace Sys2Proof

/-- The format column of R63. -/
def Operation.format : Operation → Format
  | .cinit => .z
  | .wbit => .b
  | .rbit => .z
  | .wfld => .f
  | .rfld => .f
  | .encb => .z
  | .decb => .z
  | .enci => .z
  | .deci => .z
  | .clrf => .z

/-- R62, one check per format: the largest operand field that leaves the must-be-zero bits zero is 0 for
Z and 1 for B; for F it is 3, and 3 is the reserved width code (R65). -/
def RawCommand.wellFormed (r : RawCommand) : Bool :=
  match r.operation.format with
  | .z => decide (r.arg.toNat = 0)
  | .b => decide (r.arg.toNat ≤ 1)
  | .f => decide (r.arg.toNat ≤ 2)

/-- Every term of `Instr` is a command: R64 gives no operand but `v`, one bit, and the width code, and
both are exhausted by the constructors. -/
def Instr.wellFormed : Instr → Bool
  | .cinit => true
  | .wbit _ => true
  | .rbit => true
  | .wfld8 => true
  | .wfld16 => true
  | .wfld64 => true
  | .rfld8 => true
  | .rfld16 => true
  | .rfld64 => true
  | .encb => true
  | .decb => true
  | .enci => true
  | .deci => true
  | .clrf => true

end Sys2Proof
end

