-- ==== Sys2Proof/Decode.lean ====
section
/-! DEFINITION. The decoder, total on all 256 words (R65), and the encoder written from the same table
(R62, R63, R64). -/

namespace Sys2Proof

/-- What a command word says: one of the 15 meanings, or illegal (R65). -/
inductive Decoded where
  | legal (i : Instr)
  | illegal (why : IllegalWord)
  deriving DecidableEq, Repr

/-- `op = bits[7:4]` (R62). -/
def opField (word : Byte) : BitVec 4 := word.extractLsb' 4 4

/-- `arg = bits[3:0]` (R62). -/
def argField (word : Byte) : BitVec 4 := word.extractLsb' 0 4

/-- Format Z (R62): `bits[3:0]` must be 0000. -/
def decodeZ (arg : BitVec 4) (i : Instr) : Decoded :=
  if arg = 0#4 then .legal i else .illegal .nonzeroBits

/-- Format B (R62): `bits[3:1]` must be 000; the operand is `bits[0]`. -/
def decodeB (arg : BitVec 4) (i : Bool → Instr) : Decoded :=
  if arg.extractLsb' 1 3 = 0#3 then .legal (i (arg.getLsbD 0)) else .illegal .nonzeroBits

/-- Format F (R62, R64): `bits[3:2]` must be 00; width code 00 is 8, 01 is 16, 10 is 64, 11 is illegal. -/
def decodeF (arg : BitVec 4) (i8 i16 i64 : Instr) : Decoded :=
  if arg.extractLsb' 2 2 = 0#2 then
    match (arg.extractLsb' 0 2).toNat with
    | 0 => .legal i8
    | 1 => .legal i16
    | 2 => .legal i64
    | _ => .illegal .reservedWidth
  else .illegal .nonzeroBits

/-- The operation codes of R63; 0000, 0110, 0111, 1101, 1110 and 1111 are not assigned. -/
def decode (word : Byte) : Decoded :=
  match (opField word).toNat with
  | 0b0001 => decodeZ (argField word) .cinit
  | 0b0010 => decodeB (argField word) .wbit
  | 0b0011 => decodeZ (argField word) .rbit
  | 0b0100 => decodeF (argField word) .wfld8 .wfld16 .wfld64
  | 0b0101 => decodeF (argField word) .rfld8 .rfld16 .rfld64
  | 0b1000 => decodeZ (argField word) .encb
  | 0b1001 => decodeZ (argField word) .decb
  | 0b1010 => decodeZ (argField word) .enci
  | 0b1011 => decodeZ (argField word) .deci
  | 0b1100 => decodeZ (argField word) .clrf
  | _ => .illegal .unassignedOperation

/-- `{op, arg}` (R62). -/
def wordOf (op arg : BitVec 4) : Byte := op ++ arg

/-- The operation code of R63. -/
def Operation.code : Operation → BitVec 4
  | .cinit => 0b0001#4
  | .wbit => 0b0010#4
  | .rbit => 0b0011#4
  | .wfld => 0b0100#4
  | .rfld => 0b0101#4
  | .encb => 0b1000#4
  | .decb => 0b1001#4
  | .enci => 0b1010#4
  | .deci => 0b1011#4
  | .clrf => 0b1100#4

/-- The word of a raw command. -/
def RawCommand.word (r : RawCommand) : Byte := wordOf r.operation.code r.arg

/-- An instruction's operation and operand field (R63, R64, R66). -/
def Instr.raw : Instr → RawCommand
  | .cinit => ⟨.cinit, 0b0000#4⟩
  | .wbit v => ⟨.wbit, 0b000#3 ++ BitVec.ofBool v⟩
  | .rbit => ⟨.rbit, 0b0000#4⟩
  | .wfld8 => ⟨.wfld, 0b0000#4⟩
  | .wfld16 => ⟨.wfld, 0b0001#4⟩
  | .wfld64 => ⟨.wfld, 0b0010#4⟩
  | .rfld8 => ⟨.rfld, 0b0000#4⟩
  | .rfld16 => ⟨.rfld, 0b0001#4⟩
  | .rfld64 => ⟨.rfld, 0b0010#4⟩
  | .encb => ⟨.encb, 0b0000#4⟩
  | .decb => ⟨.decb, 0b0000#4⟩
  | .enci => ⟨.enci, 0b0000#4⟩
  | .deci => ⟨.deci, 0b0000#4⟩
  | .clrf => ⟨.clrf, 0b0000#4⟩

/-- The command word of an instruction. -/
def encode (i : Instr) : Byte := i.raw.word

/-- The 8-bit command word among the low `nbits` bits of `w`: a command is one 8-bit word (R60), so bit 0
of the table's numbering is bit 0 of the word. -/
def commandWord (nbits w : Nat) : Byte := BitVec.ofNat 8 (w % 2 ^ nbits)

/-- The host's question to the decoder: the instruction it reads from the table's word. -/
def decodeTableWord (nbits w : Nat) : Option Instr :=
  match decode (commandWord nbits w) with
  | .legal i => some i
  | .illegal _ => none

end Sys2Proof
end

