-- ==== Sys2Proof/Machine/State.lean ====
section
/-! DEFINITION. The machine's state as plain data: the 17 storage registers of R11 (`MASK` is computed,
R16), the two memories (R40, R44), their sizes (R4), and the host's coming actions, which are the model's
own field. -/

namespace Sys2Proof.Machine

/-- The values of `STATE` (R18). Codes 5 to 7 are never produced (I10), so they have no constructor. -/
inductive Session where
  | idle
  | header
  | body
  | complete
  | failed
  deriving DecidableEq, Repr

/-- The values of `STATUS` (R19). Codes 8 to 15 are never produced (I10). -/
inductive Status where
  | ok
  | insufficientCapacity
  | capacityExhausted
  | ambiguousHeader
  | noCursor
  | badConfig
  | payloadRange
  | illegalCommand
  deriving DecidableEq, Repr

/-- The fatal causes, those `raise` takes (R19, R140 to R142). `AmbiguousHeader` is signalled, not raised
(R146). -/
inductive Cause where
  | insufficientCapacity
  | capacityExhausted
  | noCursor
  | badConfig
  | payloadRange
  | illegalCommand
  deriving DecidableEq, Repr

/-- The 18 registers of R11, by name. -/
inductive Reg where
  | W | H | C | LENLIM | WLIM
  | ROW | COL | CHAN | PLANE | MASK | CSTAT
  | STATE | STATUS | FLOG
  | FLD | LEN | IMGW | IMGH
  deriving DecidableEq, Repr

/-- One action of the host agent (R5, R22, R55, R60, R170): it acts only between commands, one action at a
time. The spec's listings write the last five as `.set`, `.get`, `.raster` or `.pbuf`, a read-back, and
`.reset` (R66). -/
inductive HostAction where
  /-- present a command word on the command port (R60) -/
  | command (word : Byte)
  /-- `HostWrite(i, v)` (R22) -/
  | regWrite (number : Byte) (v : Quad)
  /-- `HostRead(i)` (R22) -/
  | regRead (number : Byte)
  /-- `HostMemWrite(space, a, v)` (R55) -/
  | memWrite (space : Space) (a : Nat) (v : Quad)
  /-- `HostMemRead(space, a)` (R55) -/
  | memRead (space : Space) (a : Nat)
  /-- the reset event (R170) -/
  | reset
  deriving DecidableEq, Repr

/-- The bytes of one space that the host or the engine has written since power-on, by address.
An address that is not listed has not been written and reads as `Config.powerOnByte` (R171). -/
abbrev Memory := List Host.Cell

/-- The canonical form: addresses strictly rising. The list says which bytes have been written and with what,
so equal records are equal lists. That no cell equals what an unlisted address reads as cannot be asked: that
value is free, and nothing can be compared with it (notes/assumptions/1.md). -/
abbrev Memory.wf (m : Memory) : Prop := m.Pairwise fun x y => x.1 < y.1

/-- Everything R10 calls architectural state, and three fields of the model: the sizes and the input. -/
structure State where
  /-- `W`, 0x00: carrier width (R12) -/
  w : Dim
  /-- `H`, 0x01: carrier height (R12) -/
  h : Dim
  /-- `C`, 0x02: carrier channels per pixel (R12) -/
  c : ChanCount
  /-- `LENLIM`, 0x03: exclusive bound of a plausible byte length (R13) -/
  lenlim : Quad
  /-- `WLIM`, 0x04: inclusive bound of a plausible nested width (R13) -/
  wlim : Dim
  /-- `ROW`, 0x08 (R14) -/
  row : Dim
  /-- `COL`, 0x09 (R14) -/
  col : Dim
  /-- `CHAN`, 0x0A (R14) -/
  chan : ChanCount
  /-- `PLANE`, 0x0B: the mask index (R14) -/
  plane : BitVec 3
  /-- `CSTAT` bit 0, `CVALID`: a cursor is live (R17) -/
  cvalid : Bool
  /-- `CSTAT` bit 1, `EXH`: the cursor is exhausted (R17) -/
  exh : Bool
  /-- `CSTAT` bit 2, `BITQ`: the bit the last `RBIT` returned (R17) -/
  bitq : Bool
  /-- `STATE`, 0x10 (R18) -/
  session : Session
  /-- `STATUS`, 0x11 (R19) -/
  status : Status
  /-- `FLOG`, 0x12: the sticky log of fatal causes (R20) -/
  flog : BitVec 8
  /-- `FLD`, 0x18 (R21) -/
  fld : Quad
  /-- `LEN`, 0x19 (R21) -/
  len : Quad
  /-- `IMGW`, 0x1A (R21) -/
  imgw : Dim
  /-- `IMGH`, 0x1B (R21) -/
  imgh : Dim
  /-- the raster space (R40) -/
  raster : Memory
  /-- the payload space (R44) -/
  payload : Memory
  /-- `RASTER_SIZE` in bytes, `none` unbounded (R4). Parameter of the machine; no step changes it. -/
  rasterSize : Option Nat
  /-- `PBUF_SIZE` in bytes, `none` unbounded (R4). Parameter of the machine; no step changes it. -/
  pbufSize : Option Nat
  /-- The model's own field: the host's coming actions, the next one first (notes/assumptions/3.md). -/
  input : List HostAction
  deriving DecidableEq, Repr

/-- Why the machine stops. Neither reason is reachable from a state that meets `Inv` (Safety.lean): the
spec says the engine never makes such an access (R42, R45). Both are safe: the machine stops where the spec
gives no location to access. -/
inductive Fault where
  /-- Raised by the engine's raster access at an address at or beyond `RASTER_SIZE` (R40). Safe. -/
  | rasterAddress
  /-- Raised by the engine's payload access at an index at or beyond `PBUF_SIZE` (R44). Safe. -/
  | payloadAddress
  deriving DecidableEq, Repr

/-- What the model gives no meaning to. -/
inductive Refusal where
  /-- Raised by an arm of `exec` whose instruction has no meaning yet; no arm does. Safe. -/
  | notModelled (mnemonic : String)
  /-- Raised by a host memory access at or beyond the size of a space: "an address at or beyond the size of
  the space is outside the block and is not modelled" (R55, I22). No command raises it. Safe. -/
  | hostAddress (space : Space)
  deriving DecidableEq, Repr

/-- The machine after reset (R170, R11), with the choices the spec leaves open: nothing written in either
memory (R171), both sizes unbounded (notes/assumptions/2.md), no host action coming (notes/assumptions/3.md). -/
def State.reset : State where
  w := 0#16
  h := 0#16
  c := 3#8
  lenlim := 50000#64
  wlim := 2200#16
  row := 0#16
  col := 0#16
  chan := 0#8
  plane := 0#3
  cvalid := false
  exh := false
  bitq := false
  session := .idle
  status := .ok
  flog := 0#8
  fld := 0#64
  len := 0#64
  imgw := 0#16
  imgh := 0#16
  raster := []
  payload := []
  rasterSize := none
  pbufSize := none
  input := []

end Sys2Proof.Machine
end

