-- ==== Sys2Proof/Machine/Flags.lean ====
section
/-! DEFINITION. The codes of `STATE`, `STATUS` and `FLOG`, the packing of `CSTAT`, and `MASK`
(R16 to R20). The block has no arithmetic condition codes (R23). -/

namespace Sys2Proof.Machine

/-- R16: `MASK = 1 << PLANE`, 8 bits. -/
def maskOf (plane : BitVec 3) : BitVec 8 := 1#8 <<< plane.toNat

/-- R17: `CVALID` is bit 0, `EXH` bit 1, `BITQ` bit 2. -/
def cstatOf (cvalid exh bitq : Bool) : BitVec 3 :=
  BitVec.ofBool bitq ++ BitVec.ofBool exh ++ BitVec.ofBool cvalid

/-- R18: the code of a session state. -/
def sessionCode : Session → BitVec 3
  | .idle => 0#3
  | .header => 1#3
  | .body => 2#3
  | .complete => 3#3
  | .failed => 4#3

/-- R19: the code of an outcome. -/
def statusCode : Status → BitVec 4
  | .ok => 0#4
  | .insufficientCapacity => 1#4
  | .capacityExhausted => 2#4
  | .ambiguousHeader => 3#4
  | .noCursor => 4#4
  | .badConfig => 5#4
  | .payloadRange => 6#4
  | .illegalCommand => 7#4

/-- The outcome a fatal cause leaves in `STATUS` (R143). -/
def causeStatus : Cause → Status
  | .insufficientCapacity => .insufficientCapacity
  | .capacityExhausted => .capacityExhausted
  | .noCursor => .noCursor
  | .badConfig => .badConfig
  | .payloadRange => .payloadRange
  | .illegalCommand => .illegalCommand

/-- R20, R143: `FLOG[k] <- 1` for the cause's code `k`; the other bits keep their values. -/
def logCause (k : Cause) (flog : BitVec 8) : BitVec 8 :=
  flog ||| (1#8 <<< (statusCode (causeStatus k)).toNat)

end Sys2Proof.Machine
end

