-- ==== Sys2Proof/Machine/Operands.lean ====
section
/-! DEFINITION. The operands a command forms from the state: the addresses of R41 and R46, the sizes and
capacities of R81, R85, R111 and R121, the cursor position of R15, and the register numbers of R11.
Natural-number arithmetic throughout, without wrap-around (R90). -/

namespace Sys2Proof.Machine

/-- `N = W * H * C`, the cells of the carrier (R15). -/
def cells (s : State) : Nat := s.w.toNat * s.h.toNat * s.c.toNat

/-- R85: `Capacity() = W * H * C * 8`. -/
def capacity (s : State) : Nat := s.w.toNat * s.h.toNat * s.c.toNat * 8

/-- R41: `RADDR() = (ROW * W + COL) * C + CHAN`. -/
def raddr (s : State) : Nat := (s.row.toNat * s.w.toNat + s.col.toNat) * s.c.toNat + s.chan.toNat

/-- R46: `PIDX(w, h, chan) = (w * H1 + h) * 3 + chan`. -/
def pidx (h1 w h chan : Nat) : Nat := (w * h1 + h) * 3 + chan

/-- R15: the position of the cursor in the traversal. -/
def pos (s : State) : Nat :=
  if s.exh then 8 * cells s else s.plane.toNat * cells s + raddr s

/-- R111 step 1: the bits of an opaque-payload frame. -/
def needBytes (len : Nat) : Nat := len * 8 + 64

/-- R121: the bytes of a nested image. -/
def imageBytes (w1 h1 : Nat) : Nat := w1 * h1 * 3

/-- R121 step 1: the bits of a nested-image frame. -/
def needImage (w1 h1 : Nat) : Nat := imageBytes w1 h1 * 8 + 32

/-- `n > size`, never true of an unbounded size (R81, R111). -/
def exceeds (size : Option Nat) (n : Nat) : Bool :=
  match size with
  | none => false
  | some m => decide (m < n)

/-- The addresses of a space are `0 .. size - 1` (R40, R44). -/
def inSpace (size : Option Nat) (a : Nat) : Bool :=
  match size with
  | none => true
  | some m => decide (a < m)

/-- R112 step 3: `0 < L < LENLIM`, both strict. -/
def plausibleLength (l : Nat) (lenlim : Quad) : Bool := decide (0 < l ∧ l < lenlim.toNat)

/-- R122 step 3, negated: the width is neither 0 nor above `WLIM`. The height is not tested. -/
def plausibleWidth (w1 : Nat) (wlim : Dim) : Bool := decide (¬ (w1 = 0 ∨ wlim.toNat < w1))

/-- The register at a number, if there is one (R11). -/
def regAt (number : Byte) : Option Reg :=
  match number.toNat with
  | 0x00 => some .W
  | 0x01 => some .H
  | 0x02 => some .C
  | 0x03 => some .LENLIM
  | 0x04 => some .WLIM
  | 0x08 => some .ROW
  | 0x09 => some .COL
  | 0x0A => some .CHAN
  | 0x0B => some .PLANE
  | 0x0C => some .MASK
  | 0x0D => some .CSTAT
  | 0x10 => some .STATE
  | 0x11 => some .STATUS
  | 0x12 => some .FLOG
  | 0x18 => some .FLD
  | 0x19 => some .LEN
  | 0x1A => some .IMGW
  | 0x1B => some .IMGH
  | _ => none

/-- `zext_64` of a register (R22); `MASK` and `CSTAT` are views of `PLANE` and of the flags (R16, R17). -/
def readReg (r : Reg) (s : State) : Quad :=
  match r with
  | .W => s.w.setWidth 64
  | .H => s.h.setWidth 64
  | .C => s.c.setWidth 64
  | .LENLIM => s.lenlim
  | .WLIM => s.wlim.setWidth 64
  | .ROW => s.row.setWidth 64
  | .COL => s.col.setWidth 64
  | .CHAN => s.chan.setWidth 64
  | .PLANE => s.plane.setWidth 64
  | .MASK => (maskOf s.plane).setWidth 64
  | .CSTAT => (cstatOf s.cvalid s.exh s.bitq).setWidth 64
  | .STATE => (sessionCode s.session).setWidth 64
  | .STATUS => (statusCode s.status).setWidth 64
  | .FLOG => s.flog.setWidth 64
  | .FLD => s.fld
  | .LEN => s.len
  | .IMGW => s.imgw.setWidth 64
  | .IMGH => s.imgh.setWidth 64

end Sys2Proof.Machine
end

