-- ==== Sys2Proof/Machine/Ops.lean ====
section
/-! DEFINITION. The operations every command is built from: the two memories (R42, R45), taking a fault
and signalling (R143, R146), the cursor procedures (R80 to R84), the field datapath (R100, R101), the
counted loop, and the session's opening and end. There is no return from a fault (R148). -/

namespace Sys2Proof.Machine

/-! ### Memory -/

/-- The value stored at an address, if it has been written. -/
def lookupCell : Memory → Nat → Option Byte
  | [], _ => none
  | (a', b) :: m, a => if a = a' then some b else lookupCell m a

/-- Store a byte, keeping the addresses strictly rising. -/
def storeCell : Memory → Nat → Byte → Memory
  | [], a, v => [(a, v)]
  | (a', b) :: m, a, v =>
    if a < a' then (a, v) :: (a', b) :: m
    else if a = a' then (a, v) :: m
    else (a', b) :: storeCell m a v

/-- The written bytes of a space. -/
def memoryOf (sp : Space) (s : State) : Memory :=
  match sp with
  | .raster => s.raster
  | .payload => s.payload

/-- The size of a space (R40, R44). -/
def sizeOfSpace (sp : Space) (s : State) : Option Nat :=
  match sp with
  | .raster => s.rasterSize
  | .payload => s.pbufSize

/-- One byte of a space: "the value most recently written there by the engine or the host" (R42, R45), and
the free value where nobody has written (R171). -/
def readByte (sp : Space) (a : Nat) (s : State) : Byte :=
  (lookupCell (memoryOf sp s) a).getD (Config.powerOnByte sp a)

/-- Store one byte in a space; nothing else changes (R42, R45). -/
def writeByte (sp : Space) (a : Nat) (v : Byte) (s : State) : State :=
  match sp with
  | .raster => { s with raster := storeCell s.raster a v }
  | .payload => { s with payload := storeCell s.payload a v }

/-! ### How a command's pseudocode goes on or ends -/

/-- One line of a command's pseudocode: it goes on with a value, or the command ends here by `raise`
(R143) or `signal AmbiguousHeader` (R146), with the state it has made so far; or the machine stops. -/
inductive Flow (α : Type) where
  | ok (a : α) (s : State)
  | raised (k : Cause) (s : State)
  | ambiguous (s : State)
  | stopped (f : Fault)
  deriving Repr

/-- The next line; "no later line of its pseudocode is executed" once the command has ended (R143). -/
def Flow.bind {α β : Type} (x : Flow α) (next : α → State → Flow β) : Flow β :=
  match x with
  | .ok a s => next a s
  | .raised k s => .raised k s
  | .ambiguous s => .ambiguous s
  | .stopped f => .stopped f

/-- `if cond: raise Cause`. -/
def raiseIf (cond : Bool) (k : Cause) (s : State) : Flow Unit :=
  if cond then .raised k s else .ok () s

/-- TAKING A FAULT (R143): `STATUS`, the cause's bit of `FLOG`, `STATE` and `CVALID` are written, nothing
else; control goes nowhere, for there is no handler. -/
def takeFault (k : Cause) (s : State) : State :=
  { s with
    status := causeStatus k
    flog := logCause k s.flog
    session := .failed
    cvalid := false }

/-- `signal AmbiguousHeader` (R146): not a fault, `FLOG` is not changed. -/
def signalAmbiguous (s : State) : State :=
  { s with
    status := .ambiguousHeader
    session := .complete
    cvalid := false }

/-- `STATUS <- OK`, the last action of a command that neither raises nor signals (R19). -/
def succeed (s : State) : State := { s with status := .ok }

/-- The end of a command: every command writes `STATUS` exactly once, as its last action (R19). -/
def endCommand (x : Flow Unit) : Host.Outcome State Fault Refusal :=
  match x with
  | .ok _ s => .next (succeed s)
  | .raised k s => .next (takeFault k s)
  | .ambiguous s => .next (signalAmbiguous s)
  | .stopped f => .fault f

/-! ### The engine's memory accesses -/

/-- The fault of an access outside a space. -/
def outOfSpace : Space → Fault
  | .raster => .rasterAddress
  | .payload => .payloadAddress

/-- `MemRead(a, 1)` and `PMemRead(a, 1)` (R42, R45). -/
def memRead (sp : Space) (a : Nat) (s : State) : Flow Byte :=
  if inSpace (sizeOfSpace sp s) a then .ok (readByte sp a s) s else .stopped (outOfSpace sp)

/-- `MemWrite(a, 1, v)` and `PMemWrite(a, 1, v)` (R42, R45). -/
def memWrite (sp : Space) (a : Nat) (v : Byte) (s : State) : Flow Unit :=
  if inSpace (sizeOfSpace sp s) a then .ok () (writeByte sp a v s) else .stopped (outOfSpace sp)

/-! ### The cursor -/

/-- R80 `CursorInit()`. -/
def cursorInit (s : State) : State :=
  { s with
    row := 0#16
    col := 0#16
    chan := 0#8
    plane := 0#3
    exh := false
    cvalid := true }

/-- The configuration `ConfigCheck()` raises on (R81). -/
def badConfig (s : State) : Bool :=
  decide (s.w = 0#16 ∨ s.h = 0#16 ∨ s.c = 0#8) || exceeds s.rasterSize (cells s)

/-- R81 `ConfigCheck()`. It writes nothing. -/
def configCheck (s : State) : Flow Unit := raiseIf (badConfig s) .badConfig s

/-- `if CVALID == 0: raise NoCursor` (R87, R88, R102, R103). -/
def requireCursor (s : State) : Flow Unit := raiseIf (!s.cvalid) .noCursor s

/-- R84 after the exhaustion test: channel, then column, then row, then plane; the wrap past the last cell
of plane 7 sets `EXH` and does not fail (spec/90_conflicts.md C1). -/
def stepCursor (s : State) : State :=
  if s.chan.toNat < s.c.toNat - 1 then { s with chan := s.chan + 1#8 }
  else if s.col.toNat < s.w.toNat - 1 then { s with chan := 0#8, col := s.col + 1#16 }
  else if s.row.toNat < s.h.toNat - 1 then { s with chan := 0#8, col := 0#16, row := s.row + 1#16 }
  else if s.plane.toNat < 7 then
    { s with chan := 0#8, col := 0#16, row := 0#16, plane := s.plane + 1#3 }
  else { s with chan := 0#8, col := 0#16, row := 0#16, exh := true }

/-- R84 `Advance()`. -/
def advance (s : State) : Flow Unit :=
  if s.exh then .raised .capacityExhausted s else .ok () (stepCursor s)

/-- R82: set or clear the bits of the mask; 8-bit operations. -/
def setMasked (v : Bool) (mask b : BitVec 8) : BitVec 8 :=
  if v then b ||| mask else b &&& ~~~mask

/-- R82 `WriteBit(v)`: `EXH` is tested before any memory access (spec/90_conflicts.md C4). -/
def writeBit (v : Bool) (s : State) : Flow Unit :=
  if s.exh then .raised .capacityExhausted s
  else
    (memRead .raster (raddr s) s).bind fun b s =>
    (memWrite .raster (raddr s) (setMasked v (maskOf s.plane) b) s).bind fun _ s =>
    advance s

/-- R83 `ReadBit()`: the bit is taken with the mask of the position read, before `Advance()`. -/
def readBit (s : State) : Flow Bool :=
  if s.exh then .raised .capacityExhausted s
  else
    (memRead .raster (raddr s) s).bind fun b s =>
    (advance s).bind fun _ s' =>
    .ok (decide (b &&& maskOf s.plane ≠ 0#8)) s'

/-! ### Fields -/

/-- R100 `PutField(n, v)`: most significant bit first. -/
def putField (n v : Nat) (s : State) : Flow Unit :=
  match n with
  | 0 => .ok () s
  | i + 1 => (writeBit (v.testBit i) s).bind fun _ s => putField i v s

/-- R101's loop: `acc <- acc * 2 + ReadBit()`, `n` times. -/
def getBits (n acc : Nat) (s : State) : Flow Nat :=
  match n with
  | 0 => .ok acc s
  | i + 1 => (readBit s).bind fun r s => getBits i (acc * 2 + r.toNat) s

/-- R101 `GetField(n)`. -/
def getField (n : Nat) (s : State) : Flow Nat := getBits n 0 s

/-! ### Loops and sessions -/

/-- `for i from k to k + n - 1`. -/
def loopFrom (k n : Nat) (body : Nat → State → Flow Unit) (s : State) : Flow Unit :=
  match n with
  | 0 => .ok () s
  | m + 1 => (body k s).bind fun _ s => loopFrom (k + 1) m body s

/-- `for i from 0 to n - 1`; the bound is fixed before the loop starts (R131). -/
def loop (n : Nat) (body : Nat → State → Flow Unit) (s : State) : Flow Unit := loopFrom 0 n body s

/-- `STATE <- v`. -/
def setSession (v : Session) (s : State) : State := { s with session := v }

/-- `CursorInit()` and `STATE <- IDLE`, as every session begins (R86, R111, R112, R121, R122). -/
def openSession (s : State) : State := setSession .idle (cursorInit s)

/-- `STATE <- COMPLETE` and `CVALID <- 0`, as a macro command ends (R111, R112, R121, R122). -/
def closeSession (s : State) : State := { s with session := .complete, cvalid := false }

/-- One payload byte into the carrier: `PutField(8, PMemRead(k, 1))` (R111, R121). -/
def putPayloadByte (k : Nat) (s : State) : Flow Unit :=
  (memRead .payload k s).bind fun b s => putField 8 b.toNat s

/-- One payload byte out of the carrier: `PMemWrite(k, 1, GetField(8))` (R112, R122). -/
def getPayloadByte (k : Nat) (s : State) : Flow Unit :=
  (getField 8 s).bind fun v s => memWrite .payload k (BitVec.ofNat 8 v) s

/-- The three loops of R121 and R122 over a nested image: width, then height, then channel. -/
def imageLoop (w1 h1 : Nat) (body : Nat → State → Flow Unit) (s : State) : Flow Unit :=
  loop w1 (fun w s => loop h1 (fun h s => loop 3 (fun chan s => body (pidx h1 w h chan) s) s) s) s

end Sys2Proof.Machine
end

