-- ==== Sys2Proof/Machine/CodecBytes.lean ====
section
/-! DEFINITION. The opaque-payload commands `ENCB` and `DECB` (spec/42_codec_bytes.md R111, R112), line by
line as the rules' pseudocode. -/

namespace Sys2Proof.Machine

/-- R111. -/
def execEncb (s : State) : Host.Outcome State Fault Refusal :=
  endCommand
    ((configCheck s).bind fun _ s =>
     (raiseIf (exceeds s.pbufSize s.len.toNat) .payloadRange s).bind fun _ s =>
     (raiseIf (decide (capacity s < needBytes s.len.toNat)) .insufficientCapacity s).bind fun _ s =>
     (putField 64 s.len.toNat (openSession s)).bind fun _ s =>
     (loop s.len.toNat putPayloadByte (setSession .body (setSession .header s))).bind fun _ s =>
     .ok () (closeSession s))

/-- R112. -/
def execDecb (s : State) : Host.Outcome State Fault Refusal :=
  endCommand
    ((configCheck s).bind fun _ s =>
     (getField 64 (openSession s)).bind fun l s =>
     let s := setSession .header { s with len := BitVec.ofNat 64 l }
     if plausibleLength l s.lenlim then
       (raiseIf (exceeds s.pbufSize l) .payloadRange s).bind fun _ s =>
       (loop l getPayloadByte (setSession .body s)).bind fun _ s =>
       .ok () (closeSession s)
     else .ambiguous s)

end Sys2Proof.Machine
end

