-- ==== Sys2Proof/Machine/CodecImage.lean ====
section
/-! DEFINITION. The nested-image commands `ENCI` and `DECI` (spec/43_codec_image.md R121, R122), line by
line as the rules' pseudocode. -/

namespace Sys2Proof.Machine

/-- R121. -/
def execEnci (s : State) : Host.Outcome State Fault Refusal :=
  endCommand
    ((configCheck s).bind fun _ s =>
     let w1 := s.imgw.toNat
     let h1 := s.imgh.toNat
     (raiseIf (exceeds s.pbufSize (imageBytes w1 h1)) .payloadRange s).bind fun _ s =>
     (raiseIf (decide (capacity s < needImage w1 h1)) .insufficientCapacity s).bind fun _ s =>
     (putField 16 w1 (openSession s)).bind fun _ s =>
     (putField 16 h1 s).bind fun _ s =>
     (imageLoop w1 h1 putPayloadByte (setSession .body (setSession .header s))).bind fun _ s =>
     .ok () (closeSession s))

/-- R122: `IMGW` and `IMGH` are written together, once both have been read. -/
def execDeci (s : State) : Host.Outcome State Fault Refusal :=
  endCommand
    ((configCheck s).bind fun _ s =>
     (getField 16 (openSession s)).bind fun w1 s =>
     (getField 16 s).bind fun h1 s =>
     let s := setSession .header { s with imgw := BitVec.ofNat 16 w1, imgh := BitVec.ofNat 16 h1 }
     if plausibleWidth w1 s.wlim then
       (raiseIf (exceeds s.pbufSize (imageBytes w1 h1)) .payloadRange s).bind fun _ s =>
       (imageLoop w1 h1 getPayloadByte (setSession .body s)).bind fun _ s =>
       .ok () (closeSession s)
     else .ambiguous s)

end Sys2Proof.Machine
end

