-- ==== Sys2Proof/Machine/Cursor.lean ====
section
/-! DEFINITION. The cursor commands `CINIT`, `WBIT`, `RBIT` (spec/40_cursor.md R86 to R88). -/

namespace Sys2Proof.Machine

/-- R86. -/
def execCinit (s : State) : Host.Outcome State Fault Refusal :=
  endCommand ((configCheck s).bind fun _ s => .ok () (openSession s))

/-- R87. -/
def execWbit (v : Bool) (s : State) : Host.Outcome State Fault Refusal :=
  endCommand ((requireCursor s).bind fun _ s => writeBit v s)

/-- R88: `BITQ` is written only when the read has succeeded. -/
def execRbit (s : State) : Host.Outcome State Fault Refusal :=
  endCommand
    ((requireCursor s).bind fun _ s =>
     (readBit s).bind fun r s =>
     .ok () { s with bitq := r })

end Sys2Proof.Machine
end

