-- ==== Sys2Proof/Machine/Field.lean ====
section
/-! DEFINITION. The field commands `WFLD n` and `RFLD n` (spec/41_field.md R102, R103), one definition per
width of R64. -/

namespace Sys2Proof.Machine

/-- R102: `PutField(n, FLD[n-1:0])`. -/
def writeField (n : Nat) (s : State) : Flow Unit :=
  (requireCursor s).bind fun _ s => putField n (s.fld.toNat % 2 ^ n) s

/-- R103: `FLD <- zext_64(GetField(n))`, once, after the whole field has been read. -/
def readField (n : Nat) (s : State) : Flow Unit :=
  (requireCursor s).bind fun _ s =>
  (getField n s).bind fun t s =>
  .ok () { s with fld := BitVec.ofNat 64 t }

/-- R102, `n = 8`. -/
def execWfld8 (s : State) : Host.Outcome State Fault Refusal := endCommand (writeField 8 s)

/-- R102, `n = 16`. -/
def execWfld16 (s : State) : Host.Outcome State Fault Refusal := endCommand (writeField 16 s)

/-- R102, `n = 64`. -/
def execWfld64 (s : State) : Host.Outcome State Fault Refusal := endCommand (writeField 64 s)

/-- R103, `n = 8`. -/
def execRfld8 (s : State) : Host.Outcome State Fault Refusal := endCommand (readField 8 s)

/-- R103, `n = 16`. -/
def execRfld16 (s : State) : Host.Outcome State Fault Refusal := endCommand (readField 16 s)

/-- R103, `n = 64`. -/
def execRfld64 (s : State) : Host.Outcome State Fault Refusal := endCommand (readField 64 s)

end Sys2Proof.Machine
end

