-- ==== Sys2Proof/Machine/System.lean ====
section
/-! DEFINITION. The housekeeping command `CLRF` (spec/44_system.md R130). The block has no other system
command (R132). -/

namespace Sys2Proof.Machine

/-- R130: `FLOG <- 0`; it does not leave `FAILED` and does not revive a cursor. -/
def execClrf (s : State) : Host.Outcome State Fault Refusal :=
  endCommand (.ok () { s with flog := 0#8 })

end Sys2Proof.Machine
end

