-- ==== Sys2Proof/Machine/Dispatch.lean ====
section
/-! DEFINITION. The meaning of each instruction of the opcode table, one arm per constructor (R131). -/

namespace Sys2Proof.Machine

def exec (i : Instr) (s : State) : Host.Outcome State Fault Refusal :=
  match i with
  | .cinit => Sys2Proof.Machine.execCinit s
  | .wbit v => Sys2Proof.Machine.execWbit v s
  | .rbit => Sys2Proof.Machine.execRbit s
  | .wfld8 => Sys2Proof.Machine.execWfld8 s
  | .wfld16 => Sys2Proof.Machine.execWfld16 s
  | .wfld64 => Sys2Proof.Machine.execWfld64 s
  | .rfld8 => Sys2Proof.Machine.execRfld8 s
  | .rfld16 => Sys2Proof.Machine.execRfld16 s
  | .rfld64 => Sys2Proof.Machine.execRfld64 s
  | .encb => Sys2Proof.Machine.execEncb s
  | .decb => Sys2Proof.Machine.execDecb s
  | .enci => Sys2Proof.Machine.execEnci s
  | .deci => Sys2Proof.Machine.execDeci s
  | .clrf => Sys2Proof.Machine.execClrf s

end Sys2Proof.Machine
end

