-- ==== Sys2Proof/Machine/HostPort.lean ====
section
/-! DEFINITION. What each action of the host does: presenting a command word (R131), the register port
(R22), the memory port (R55), and the reset event (R170). -/

namespace Sys2Proof.Machine

/-- R131 `Issue(word)`, total on all 256 words: a legal word runs its command, every other raises
`IllegalCommand` (R142). -/
def issue (word : Byte) (s : State) : Host.Outcome State Fault Refusal :=
  match decode word with
  | .legal i => exec i s
  | .illegal _ => endCommand (.raised .illegalCommand s)

/-- R22 `HostRead(i)`: the register zero-extended to 64 bits, 0 where the number holds none. -/
def hostRead (number : Byte) (s : State) : Quad :=
  match regAt number with
  | some r => readReg r s
  | none => 0#64

/-- R22 `HostWrite(i, v)`: a register with access RW takes the value truncated to its width, and a write to
`W`, `H` or `C` also clears `CVALID` (R12); a write to a read-only register or to a number that holds no
register has no effect (R11, I11, I12). -/
def hostWrite (number : Byte) (v : Quad) (s : State) : State :=
  match regAt number with
  | some .W => { s with w := v.setWidth 16, cvalid := false }
  | some .H => { s with h := v.setWidth 16, cvalid := false }
  | some .C => { s with c := v.setWidth 8, cvalid := false }
  | some .LENLIM => { s with lenlim := v }
  | some .WLIM => { s with wlim := v.setWidth 16 }
  | some .FLD => { s with fld := v }
  | some .LEN => { s with len := v }
  | some .IMGW => { s with imgw := v.setWidth 16 }
  | some .IMGH => { s with imgh := v.setWidth 16 }
  | some .ROW => s
  | some .COL => s
  | some .CHAN => s
  | some .PLANE => s
  | some .MASK => s
  | some .CSTAT => s
  | some .STATE => s
  | some .STATUS => s
  | some .FLOG => s
  | none => s

/-- R55 `HostMemWrite(space, a, v)`: stores `v[7:0]`; an address outside the space is not modelled. -/
def hostMemWrite (sp : Space) (a : Nat) (v : Quad) (s : State) : Host.Outcome State Fault Refusal :=
  if inSpace (sizeOfSpace sp s) a then .next (writeByte sp a (v.setWidth 8) s) else .refused (.hostAddress sp)

/-- R55 `HostMemRead(space, a)` returns `readByte space a`; as a step it changes nothing. -/
def hostMemRead (sp : Space) (a : Nat) (s : State) : Host.Outcome State Fault Refusal :=
  if inSpace (sizeOfSpace sp s) a then .next s else .refused (.hostAddress sp)

/-- R170, R171: the reset event sets every register to its reset value and writes neither memory. The
parameters and the host's coming actions are not the block's registers and stay. -/
def resetEvent (s : State) : State :=
  { State.reset with
    raster := s.raster
    payload := s.payload
    rasterSize := s.rasterSize
    pbufSize := s.pbufSize
    input := s.input }

/-- One action of the host (R5), the engine's answer included. A register read returns `hostRead` and has
no side effect (R22). -/
def performAction (a : HostAction) (s : State) : Host.Outcome State Fault Refusal :=
  match a with
  | .command word => issue word s
  | .regWrite number v => .next (hostWrite number v s)
  | .regRead _ => .next s
  | .memWrite sp a v => hostMemWrite sp a v s
  | .memRead sp a => hostMemRead sp a s
  | .reset => .next (resetEvent s)

end Sys2Proof.Machine
end

