-- ==== Sys2Proof/Machine/Step.lean ====
section
/-! DEFINITION. One step of the machine: the next action of the host, to its end. The host acts only
between commands and a command runs to completion (R5, R60, R176), so no step begins inside a command. -/

namespace Sys2Proof.Machine

/-- The next host action, if there is one; with none coming the block waits, unchanged
(notes/assumptions/3.md). -/
def step (s : State) : Host.Outcome State Fault Refusal :=
  match s.input with
  | [] => .next s
  | a :: rest => performAction a { s with input := rest }

/-- The table's word as the next command the host presents: commands are not stored in memory and are not
fetched (R54, R61), so the place `step` takes its next instruction from is the head of the input
(notes/assumptions/4.md). -/
def State.withFetchWord (s : State) (nbits w : Nat) : State :=
  { s with input := .command (commandWord nbits w) :: s.input }

end Sys2Proof.Machine
end

