-- ==== Sys2Proof/Laws/PerInstr.lean ====
section
/-! SUPPORT. Statements about every instruction as syntax, one lemma per constructor. -/

namespace Sys2Proof.Laws

/-- Every instruction is encoded as a well-formed raw command: its must-be-zero bits are zero and its width
code is not the reserved one (R62, R64). -/
def EncodesWellFormed.Statement (i : Instr) : Prop :=
  i.raw.wellFormed = true

namespace EncodesWellFormed
theorem cinit : Statement .cinit := rfl
theorem wbit (v : Bool) : Statement (.wbit v) := by cases v <;> rfl
theorem rbit : Statement .rbit := rfl
theorem wfld8 : Statement .wfld8 := rfl
theorem wfld16 : Statement .wfld16 := rfl
theorem wfld64 : Statement .wfld64 := rfl
theorem rfld8 : Statement .rfld8 := rfl
theorem rfld16 : Statement .rfld16 := rfl
theorem rfld64 : Statement .rfld64 := rfl
theorem encb : Statement .encb := rfl
theorem decb : Statement .decb := rfl
theorem enci : Statement .enci := rfl
theorem deci : Statement .deci := rfl
theorem clrf : Statement .clrf := rfl
end EncodesWellFormed

end Sys2Proof.Laws
end

