-- ==== Sys2Proof/Safety.lean ====
section
/-! DEFINITION. The terms claims are made in: the embedded bit stream as the spec describes it (R15, R47,
R67, R68), the invariant every step keeps, and a run without a recorded fault (R20). -/

namespace Sys2Proof.Machine

/-! ### Legal words and operands -/

/-- R63: "There are exactly 15 legal command words". -/
def legalWords : List Byte :=
  [0x10#8, 0x20#8, 0x21#8, 0x30#8, 0x40#8, 0x41#8, 0x42#8, 0x50#8, 0x51#8, 0x52#8, 0x80#8, 0x90#8,
   0xA0#8, 0xB0#8, 0xC0#8]

/-- R12: "a configuration is legal when `W >= 1`, `H >= 1`, `C >= 1` and `W * H * C <= RASTER_SIZE`". -/
def LegalConfig (s : State) : Prop :=
  1 ≤ s.w.toNat ∧ 1 ≤ s.h.toNat ∧ 1 ≤ s.c.toNat ∧
    ∀ m, s.rasterSize = some m → s.w.toNat * s.h.toNat * s.c.toNat ≤ m

/-- A payload of `n` bytes lies within the payload space (R141). -/
def FitsPayload (s : State) (n : Nat) : Prop := ∀ m, s.pbufSize = some m → n ≤ m

/-! ### The bit stream in the raster -/

/-- Bit `i` of raster byte `a`. -/
def rasterBit (s : State) (a i : Nat) : Bool := (readByte .raster a s).getLsbD i

/-- R15, R47: stream bit `p` is bit `p div N` of raster byte `p mod N`, `N = W * H * C`. -/
def streamBit (s : State) (p : Nat) : Bool := rasterBit s (p % cells s) (p / cells s)

/-- The `n`-bit field that starts at stream bit `p`, most significant bit first (R47). -/
def streamField (s : State) (p n : Nat) : Nat :=
  match n with
  | 0 => 0
  | m + 1 => 2 * streamField s p m + (streamBit s (p + m)).toNat

/-- `t`'s raster is `s`'s with stream bits `p .. p + n - 1` replaced by `f 0 .. f (n - 1)`: the bits of one
plane lie `N` positions after those of the plane below (R15), and every other bit of every byte is as it
was (R43). -/
def Embedded (s t : State) (p n : Nat) (f : Nat → Bool) : Prop :=
  ∀ a i, i < 8 →
    rasterBit t a i =
      if a < cells s ∧ p ≤ i * cells s + a ∧ i * cells s + a < p + n then f (i * cells s + a - p)
      else rasterBit s a i

/-- Bit `j` of the `n`-bit value `v` sent most significant bit first (R47, R100). -/
def fieldBit (n v j : Nat) : Bool := v.testBit (n - 1 - j)

/-- R67: bit `j` of the opaque-payload frame of the first `LEN` payload bytes. -/
def bytesFrameBit (s : State) (j : Nat) : Bool :=
  if j < 64 then fieldBit 64 s.len.toNat j
  else fieldBit 8 (readByte .payload ((j - 64) / 8) s).toNat ((j - 64) % 8)

/-- R68: bit `j` of the nested-image frame of the `IMGW` by `IMGH` grid in the payload space. -/
def imageFrameBit (s : State) (j : Nat) : Bool :=
  if j < 16 then fieldBit 16 s.imgw.toNat j
  else if j < 32 then fieldBit 16 s.imgh.toNat (j - 16)
  else fieldBit 8 (readByte .payload ((j - 32) / 8) s).toNat ((j - 32) % 8)

/-- Payload bytes `0 .. n - 1` of `t` are the raster bytes' stream of `s` from stream bit `p` on, eight bits
a byte, and every other payload byte of `t` is `s`'s (R112, R122). -/
def Extracted (s t : State) (p n : Nat) : Prop :=
  ∀ k, readByte .payload k t =
    if k < n then BitVec.ofNat 8 (streamField s (p + 8 * k) 8) else readByte .payload k s

/-! ### Frames -/

/-- `t` is `s` but for the cursor position registers and `EXH`, which `Advance()` writes (R84). -/
def OnlyCursor (s t : State) : Prop :=
  t = { s with row := t.row, col := t.col, chan := t.chan, plane := t.plane, exh := t.exh }

/-- `t` is `s` but for the cursor position registers, `EXH` and the raster, which `WriteBit` writes (R82). -/
def OnlyBits (s t : State) : Prop :=
  t = { s with row := t.row, col := t.col, chan := t.chan, plane := t.plane, exh := t.exh,
               raster := t.raster }

/-- `t` is `s` but for the cursor position registers, `EXH` and the payload space (R112, R122). -/
def OnlyPayload (s t : State) : Prop :=
  t = { s with row := t.row, col := t.col, chan := t.chan, plane := t.plane, exh := t.exh,
               payload := t.payload }

/-! ### The invariant -/

/-- A configuration and a cursor that R14 allows: `0 <= row < H`, `0 <= col < W`, `0 <= channel < C`, in a
carrier that fits the raster space (R81). -/
structure CursorOk (s : State) : Prop where
  row_lt : s.row.toNat < s.h.toNat
  col_lt : s.col.toNat < s.w.toNat
  chan_lt : s.chan.toNat < s.c.toNat
  fits : exceeds s.rasterSize (cells s) = false

/-- The cursor registers of an exhausted cursor hold `(0,0,0,7)` (R140, R89 item 1). -/
def AtEnd (s : State) : Prop := s.row = 0#16 ∧ s.col = 0#16 ∧ s.chan = 0#8 ∧ s.plane = 7#3

/-- A memory in canonical form that lists no address outside its space. -/
def MemoryOk (size : Option Nat) (m : Memory) : Prop := m.wf ∧ ∀ x ∈ m, inSpace size x.1 = true

/-- What holds between commands. -/
structure Inv (s : State) : Prop where
  /-- R14, R12: a live cursor is within its bounds -/
  live : s.cvalid = true → CursorOk s
  /-- R140: an exhausted cursor stands at `(0,0,0,7)` -/
  exhausted : s.exh = true → AtEnd s
  /-- R18: the host can only ever read `IDLE`, `COMPLETE` or `FAILED` -/
  session_legal : s.session = .idle ∨ s.session = .complete ∨ s.session = .failed
  /-- R18, R143: a session that is open between commands was opened by `CINIT` and has not failed -/
  live_idle : s.cvalid = true → s.session = .idle
  /-- R20: bits 0 and 3 of `FLOG` are always 0 -/
  flog_reserved : s.flog.getLsbD 0 = false ∧ s.flog.getLsbD 3 = false
  /-- R40, R50 -/
  raster_ok : MemoryOk s.rasterSize s.raster
  /-- R44, R50 -/
  payload_ok : MemoryOk s.pbufSize s.payload

/-- R20: the check `FLOG` exists for, "no fault recorded". -/
def NoFaultRecorded (s : State) : Prop := s.flog = 0#8

end Sys2Proof.Machine
end

