-- ==== Sys2Proof/Certificates/Slice0/Obligations.lean ====
section
/-! DEFINITION. The statements for the provers. Each docstring names the rule or the sections of the spec
it formalises. `t = { s with … }` is a frame: every field of the state that is not listed is unchanged,
and a field listed as `t`'s own is said by the clauses beside it. -/

open Sys2Proof Sys2Proof.Machine

/-! ### Encoding (spec/30_encoding.md) -/

/-- R63's table, word by word, written out bit by bit, and its closing count: every other word is illegal. -/
def Obligations.WrittenOutWordsDecode : Prop :=
  decode 0b00010000#8 = .legal .cinit ∧
  decode 0b00100000#8 = .legal (.wbit false) ∧
  decode 0b00100001#8 = .legal (.wbit true) ∧
  decode 0b00110000#8 = .legal .rbit ∧
  decode 0b01000000#8 = .legal .wfld8 ∧
  decode 0b01000001#8 = .legal .wfld16 ∧
  decode 0b01000010#8 = .legal .wfld64 ∧
  decode 0b01010000#8 = .legal .rfld8 ∧
  decode 0b01010001#8 = .legal .rfld16 ∧
  decode 0b01010010#8 = .legal .rfld64 ∧
  decode 0b10000000#8 = .legal .encb ∧
  decode 0b10010000#8 = .legal .decb ∧
  decode 0b10100000#8 = .legal .enci ∧
  decode 0b10110000#8 = .legal .deci ∧
  decode 0b11000000#8 = .legal .clrf ∧
  ∀ word, word ∉ legalWords → ∃ why, decode word = .illegal why

/-- Decode and encode agree, in both directions: a word decodes to an instruction exactly when it is the
word of that instruction, and the instruction is then well formed (R62 to R65). -/
def Obligations.DecodeInvertsEncode : Prop :=
  ∀ (i : Instr) (word : Byte), decode word = .legal i ↔ i.wellFormed = true ∧ encode i = word

/-- R62: the decoder accepts exactly the words whose must-be-zero bits are zero and whose width code is not
11, operation by operation. Which reason it names for an illegal word is the model's own division (log entry
13), no rule of the spec: the reserved width code only where the must-be-zero bits are zero, and never an
unassigned operation for one of the ten of R63. -/
def Obligations.DecoderChecksOperandBits : Prop :=
  ∀ r : RawCommand,
    (r.wellFormed = true ↔ ∃ i : Instr, decode r.word = .legal i ∧ i.raw = r) ∧
    (decode r.word = .illegal .reservedWidth ↔ r.operation.format = .f ∧ r.arg = 0b0011#4) ∧
    decode r.word ≠ .illegal .unassignedOperation

/-- R142, R65: each of the 241 other words raises `IllegalCommand` and does nothing else; `STATUS`, bit 7 of
`FLOG`, `STATE` and `CVALID` are what a raise writes (R143). -/
def Obligations.OtherWordsRaiseIllegalCommand : Prop :=
  ∀ (s : State) (word : Byte), word ∉ legalWords →
    issue word s =
      .next { s with status := .illegalCommand, flog := s.flog ||| 0x80#8, session := .failed, cvalid := false }

/-! ### The step and the host's actions (spec/44_system.md, spec/10_state.md, spec/20_memory.md) -/

/-- R131: when the host's next action presents a word that decodes to a well-formed instruction, the step
is that instruction's meaning, on the state whose coming actions are the ones after it. The input is the
model's own field (log entry 3). -/
def Obligations.StepRunsDecodedCommand : Prop :=
  ∀ (s : State) (word : Byte) (rest : List HostAction) (i : Instr),
    s.input = .command word :: rest → decode word = .legal i → i.wellFormed = true →
    step s = exec i { s with input := rest }

/-- R5, R22, R55, R170: what every other action of the host does in a step. Three of its clauses are the
model's: that a step with no action coming changes nothing (log entry 3); that a memory access outside its
space is refused as `hostAddress`, where R55 says no more than that it is not modelled and I22 gives the
treatment `refuse` (log entry 5); and that a read leaves no record of the value it returns (log entry 11). -/
def Obligations.StepPerformsHostActions : Prop :=
  ∀ (s : State) (rest : List HostAction),
    (s.input = [] → step s = .next s) ∧
    (∀ n v, s.input = .regWrite n v :: rest → step s = .next (hostWrite n v { s with input := rest })) ∧
    (∀ n, s.input = .regRead n :: rest → step s = .next { s with input := rest }) ∧
    (∀ sp a v, s.input = .memWrite sp a v :: rest →
      step s = if inSpace (sizeOfSpace sp s) a then .next (writeByte sp a (v.setWidth 8) { s with input := rest })
        else .refused (.hostAddress sp)) ∧
    (∀ sp a, s.input = .memRead sp a :: rest →
      step s = if inSpace (sizeOfSpace sp s) a then .next { s with input := rest }
        else .refused (.hostAddress sp)) ∧
    (s.input = .reset :: rest → step s = .next (resetEvent { s with input := rest }))

/-- R170, R11: the reset event sets every register to its reset value, in every state it finds the block
in, and the model's reset state holds the same values. -/
def Obligations.ResetSetsEveryRegister : Prop :=
  ∀ (s t : State), (t = resetEvent s ∨ t = State.reset) →
    t.w = 0#16 ∧ t.h = 0#16 ∧ t.c = 3#8 ∧ t.lenlim = 50000#64 ∧ t.wlim = 2200#16 ∧
    t.row = 0#16 ∧ t.col = 0#16 ∧ t.chan = 0#8 ∧ t.plane = 0#3 ∧ hostRead 0x0C#8 t = 1#64 ∧
    t.cvalid = false ∧ t.exh = false ∧ t.bitq = false ∧ t.session = .idle ∧ t.status = .ok ∧
    t.flog = 0#8 ∧ t.fld = 0#64 ∧ t.len = 0#64 ∧ t.imgw = 0#16 ∧ t.imgh = 0#16

/-- R171: "A reset that occurs later leaves both memories as they were". That it also leaves the sizes and
the host's coming actions is the model's (log entries 2 and 3). -/
def Obligations.ResetLeavesMemories : Prop :=
  ∀ s : State,
    (∀ sp a, readByte sp a (resetEvent s) = readByte sp a s) ∧
    (resetEvent s).raster = s.raster ∧ (resetEvent s).payload = s.payload ∧
    (resetEvent s).rasterSize = s.rasterSize ∧ (resetEvent s).pbufSize = s.pbufSize ∧
    (resetEvent s).input = s.input

/-- R172: in the reset state the bit and field commands raise `NoCursor`, the commands that open a session
raise `BadConfig`, and `CLRF` succeeds. -/
def Obligations.CommandsAfterReset : Prop :=
  ∀ s : State,
    (∀ i ∈ [Instr.wbit false, .wbit true, .rbit, .wfld8, .wfld16, .wfld64, .rfld8, .rfld16, .rfld64],
      exec i (resetEvent s) =
        .next { resetEvent s with status := .noCursor, flog := 0x10#8, session := .failed }) ∧
    (∀ i ∈ [Instr.cinit, .encb, .decb, .enci, .deci],
      exec i (resetEvent s) =
        .next { resetEvent s with status := .badConfig, flog := 0x20#8, session := .failed }) ∧
    exec .clrf (resetEvent s) = .next (resetEvent s)

/-- R11, R22: `HostRead` of each register that is read as it is stored (all but `MASK`, `CSTAT`, `STATE` and
`STATUS`) is the register zero-extended to 64 bits, and of a number that holds none it is 0. -/
def Obligations.RegisterPortReadsRegisters : Prop :=
  ∀ s : State,
    hostRead 0x00#8 s = s.w.setWidth 64 ∧ hostRead 0x01#8 s = s.h.setWidth 64 ∧
    hostRead 0x02#8 s = s.c.setWidth 64 ∧ hostRead 0x03#8 s = s.lenlim ∧
    hostRead 0x04#8 s = s.wlim.setWidth 64 ∧ hostRead 0x08#8 s = s.row.setWidth 64 ∧
    hostRead 0x09#8 s = s.col.setWidth 64 ∧ hostRead 0x0A#8 s = s.chan.setWidth 64 ∧
    hostRead 0x0B#8 s = s.plane.setWidth 64 ∧ hostRead 0x12#8 s = s.flog.setWidth 64 ∧
    hostRead 0x18#8 s = s.fld ∧ hostRead 0x19#8 s = s.len ∧
    hostRead 0x1A#8 s = s.imgw.setWidth 64 ∧ hostRead 0x1B#8 s = s.imgh.setWidth 64 ∧
    ∀ n : Byte, 0x05 ≤ n.toNat ∧ n.toNat ≤ 0x07 ∨ n.toNat = 0x0E ∨ n.toNat = 0x0F ∨
      0x13 ≤ n.toNat ∧ n.toNat ≤ 0x17 ∨ 0x1C ≤ n.toNat → hostRead n s = 0#64

/-- R16, R17, R18, R19: what the host reads in `MASK`, `CSTAT`, `STATE` and `STATUS`. -/
def Obligations.RegisterPortReadsFlagsAndCodes : Prop :=
  ∀ s : State,
    (hostRead 0x0C#8 s).toNat = 2 ^ s.plane.toNat ∧
    (hostRead 0x0D#8 s).toNat = s.cvalid.toNat + 2 * s.exh.toNat + 4 * s.bitq.toNat ∧
    (hostRead 0x10#8 s).toNat =
      (match s.session with | .idle => 0 | .header => 1 | .body => 2 | .complete => 3 | .failed => 4) ∧
    (hostRead 0x11#8 s).toNat =
      (match s.status with
        | .ok => 0 | .insufficientCapacity => 1 | .capacityExhausted => 2 | .ambiguousHeader => 3
        | .noCursor => 4 | .badConfig => 5 | .payloadRange => 6 | .illegalCommand => 7)

/-- R22, R12: `HostWrite` to each RW register stores the value truncated to the register's width and
changes nothing else, but that a write to `W`, `H` or `C`, whatever the value, also clears `CVALID`. -/
def Obligations.RegisterPortWrites : Prop :=
  ∀ (s : State) (v : Quad),
    hostWrite 0x00#8 v s = { s with w := v.setWidth 16, cvalid := false } ∧
    hostWrite 0x01#8 v s = { s with h := v.setWidth 16, cvalid := false } ∧
    hostWrite 0x02#8 v s = { s with c := v.setWidth 8, cvalid := false } ∧
    hostWrite 0x03#8 v s = { s with lenlim := v } ∧
    hostWrite 0x04#8 v s = { s with wlim := v.setWidth 16 } ∧
    hostWrite 0x18#8 v s = { s with fld := v } ∧
    hostWrite 0x19#8 v s = { s with len := v } ∧
    hostWrite 0x1A#8 v s = { s with imgw := v.setWidth 16 } ∧
    hostWrite 0x1B#8 v s = { s with imgh := v.setWidth 16 }

/-- R11, R22: a host write to a read-only register, or to a number that holds none, is ignored: no register,
no flag, no memory byte changes. -/
def Obligations.RegisterPortIgnoresOtherWrites : Prop :=
  ∀ (s : State) (n : Byte) (v : Quad),
    n ∉ [0x00#8, 0x01#8, 0x02#8, 0x03#8, 0x04#8, 0x18#8, 0x19#8, 0x1A#8, 0x1B#8] → hostWrite n v s = s

/-- R55: a host memory write within the space stores `v[7:0]` at the address and changes no other byte of
either space and no register. That one outside the space, which R55 says is not modelled, is refused as
`hostAddress` is the model's (log entry 5, from I22). -/
def Obligations.HostMemoryWriteStoresOneByte : Prop :=
  ∀ (s : State) (sp : Space) (a : Nat) (v : Quad),
    (inSpace (sizeOfSpace sp s) a = true →
      ∃ t, performAction (.memWrite sp a v) s = .next t ∧
        t = { s with raster := t.raster, payload := t.payload } ∧
        readByte sp a t = v.setWidth 8 ∧
        ∀ sp' a', sp' ≠ sp ∨ a' ≠ a → readByte sp' a' t = readByte sp' a' s) ∧
    (inSpace (sizeOfSpace sp s) a = false →
      performAction (.memWrite sp a v) s = .refused (.hostAddress sp))

/-! ### The cursor commands (spec/40_cursor.md) -/

/-- R86: with a legal configuration `CINIT` creates the cursor at origin, plane 0, in every `STATE`. -/
def Obligations.CinitOpensSession : Prop :=
  ∀ s : State, LegalConfig s →
    exec .cinit s =
      .next { s with row := 0#16, col := 0#16, chan := 0#8, plane := 0#3, exh := false, cvalid := true,
                     session := .idle, status := .ok }

/-- R81, R141: `CINIT` and the macro commands raise `BadConfig` on every configuration that is not legal,
before anything else. -/
def Obligations.IllegalConfigurationIsRefused : Prop :=
  ∀ s : State, ¬ LegalConfig s →
    ∀ i ∈ [Instr.cinit, .encb, .decb, .enci, .deci],
      exec i s =
        .next { s with status := .badConfig, flog := s.flog ||| 0x20#8, session := .failed, cvalid := false }

/-- R87, R82, R43, R15: `WBIT v` with a live cursor that is not exhausted. The bit the mask selects of the
byte under the cursor becomes `v`; the other seven bits and every other byte keep their values; the position
moves by one. -/
def Obligations.WbitWritesOneBit : Prop :=
  ∀ (s : State) (v : Bool), Inv s → s.cvalid = true → s.exh = false →
    ∃ t, exec (.wbit v) s = .next t ∧
      t = { s with row := t.row, col := t.col, chan := t.chan, plane := t.plane, exh := t.exh,
                   raster := t.raster, status := .ok } ∧
      pos t = pos s + 1 ∧
      rasterBit t (raddr s) s.plane.toNat = v ∧
      (∀ i, i < 8 → i ≠ s.plane.toNat → rasterBit t (raddr s) i = rasterBit s (raddr s) i) ∧
      (∀ a, a ≠ raddr s → readByte .raster a t = readByte .raster a s) ∧
      ∀ a, readByte .payload a t = readByte .payload a s

/-- R88, R83: `RBIT` with a live cursor that is not exhausted. `BITQ` takes the bit the mask selects of the
byte under the cursor, the position moves by one, and no byte of either memory changes. -/
def Obligations.RbitReadsOneBit : Prop :=
  ∀ s : State, Inv s → s.cvalid = true → s.exh = false →
    ∃ t, exec .rbit s = .next t ∧
      t = { s with row := t.row, col := t.col, chan := t.chan, plane := t.plane, exh := t.exh,
                   bitq := rasterBit s (raddr s) s.plane.toNat, status := .ok } ∧
      pos t = pos s + 1 ∧
      ∀ sp a, readByte sp a t = readByte sp a s

/-- R87, R88, R145: the bit commands raise `NoCursor` first and then `CapacityExhausted`, and a raise leaves
the cursor position, `BITQ` and both memories as they were. -/
def Obligations.BitCommandsFault : Prop :=
  ∀ (s : State), ∀ i ∈ [Instr.wbit false, .wbit true, .rbit],
    (s.cvalid = false → exec i s =
      .next { s with status := .noCursor, flog := s.flog ||| 0x10#8, session := .failed, cvalid := false }) ∧
    (s.cvalid = true → s.exh = true → exec i s =
      .next { s with status := .capacityExhausted, flog := s.flog ||| 0x04#8, session := .failed,
                     cvalid := false })

/-- R89 item 1, R15, R41: the cursor registers are the coordinates of the position: with `N` cells and
`q = POS mod N`, the plane is `POS div N`, the row `q div (W * C)`, the column `(q div C) mod W`, the channel
`q mod C`, and the address under the cursor is `q`. -/
def Obligations.CursorCoordinatesFollowPosition : Prop :=
  ∀ s : State, Inv s → s.cvalid = true → s.exh = false →
    pos s < 8 * (s.w.toNat * s.h.toNat * s.c.toNat) ∧
    s.plane.toNat = pos s / (s.w.toNat * s.h.toNat * s.c.toNat) ∧
    raddr s = pos s % (s.w.toNat * s.h.toNat * s.c.toNat) ∧
    s.row.toNat = raddr s / (s.w.toNat * s.c.toNat) ∧
    s.col.toNat = raddr s / s.c.toNat % s.w.toNat ∧
    s.chan.toNat = raddr s % s.c.toNat

/-! ### The field commands (spec/41_field.md) -/

/-- R102, R100: `WFLD n` with at least `n` positions left writes `FLD[n-1:0]`, most significant bit first,
at the next `n` positions, one bit each; every other bit of the raster keeps its value. -/
def Obligations.WfldWritesField : Prop :=
  ∀ (s : State), Inv s → s.cvalid = true →
    ∀ p ∈ [(Instr.wfld8, 8), (.wfld16, 16), (.wfld64, 64)], pos s + p.2 ≤ capacity s →
      ∃ t, exec p.1 s = .next t ∧
        t = { s with row := t.row, col := t.col, chan := t.chan, plane := t.plane, exh := t.exh,
                     raster := t.raster, status := .ok } ∧
        pos t = pos s + p.2 ∧
        Embedded s t (pos s) p.2 (fun j => s.fld.getLsbD (p.2 - 1 - j)) ∧
        (∀ a, (∀ j, j < p.2 → a ≠ (pos s + j) % cells s) → readByte .raster a t = readByte .raster a s) ∧
        ∀ a, readByte .payload a t = readByte .payload a s

/-- R102, R144: `WFLD n` with `r < n` positions left writes the top `r` bits `FLD[n-1 : n-r]` and then raises
`CapacityExhausted`; nothing is rolled back, and the cursor registers hold `(0,0,0,7)` with `EXH = 1`. -/
def Obligations.WfldRunsOutPartWay : Prop :=
  ∀ (s : State), Inv s → s.cvalid = true →
    ∀ p ∈ [(Instr.wfld8, 8), (.wfld16, 16), (.wfld64, 64)], capacity s < pos s + p.2 →
      ∃ t, exec p.1 s = .next t ∧
        t = { s with row := 0#16, col := 0#16, chan := 0#8, plane := 7#3, exh := true, raster := t.raster,
                     status := .capacityExhausted, flog := s.flog ||| 0x04#8, session := .failed,
                     cvalid := false } ∧
        Embedded s t (pos s) (capacity s - pos s) (fun j => s.fld.getLsbD (p.2 - 1 - j))

/-- R103, R101: `RFLD n` with at least `n` positions left puts the `n` bits read, the first of them as bit
`n - 1`, into `FLD`, whose higher bits become 0, and writes no memory and not `BITQ`. -/
def Obligations.RfldReadsField : Prop :=
  ∀ (s : State), Inv s → s.cvalid = true →
    ∀ p ∈ [(Instr.rfld8, 8), (.rfld16, 16), (.rfld64, 64)], pos s + p.2 ≤ capacity s →
      ∃ t, exec p.1 s = .next t ∧
        t = { s with row := t.row, col := t.col, chan := t.chan, plane := t.plane, exh := t.exh,
                     fld := t.fld, status := .ok } ∧
        pos t = pos s + p.2 ∧
        (∀ j, j < p.2 → t.fld.getLsbD (p.2 - 1 - j) = streamBit s (pos s + j)) ∧
        (∀ j, p.2 ≤ j → t.fld.getLsbD j = false) ∧
        ∀ sp a, readByte sp a t = readByte sp a s

/-- R103: `RFLD n` with fewer than `n` positions left consumes them and raises `CapacityExhausted`; `FLD`
keeps its old value, and no memory is written. -/
def Obligations.RfldRunsOutPartWay : Prop :=
  ∀ (s : State), Inv s → s.cvalid = true →
    ∀ p ∈ [(Instr.rfld8, 8), (.rfld16, 16), (.rfld64, 64)], capacity s < pos s + p.2 →
      exec p.1 s =
        .next { s with row := 0#16, col := 0#16, chan := 0#8, plane := 7#3, exh := true,
                       status := .capacityExhausted, flog := s.flog ||| 0x04#8, session := .failed,
                       cvalid := false }

/-- R102, R103: with no live cursor every field command raises `NoCursor` and nothing is written. -/
def Obligations.FieldCommandsNeedCursor : Prop :=
  ∀ (s : State), s.cvalid = false →
    ∀ i ∈ [Instr.wfld8, .wfld16, .wfld64, .rfld8, .rfld16, .rfld64],
      exec i s =
        .next { s with status := .noCursor, flog := s.flog ||| 0x10#8, session := .failed, cvalid := false }

/-- R104 for one field: a field written from a fresh cursor is read back by a later session from a fresh
cursor over the same carrier. -/
def Obligations.FieldRoundTrip : Prop :=
  ∀ (s a b c : State),
    ∀ p ∈ [(Instr.wfld8, Instr.rfld8, 8), (.wfld16, .rfld16, 16), (.wfld64, .rfld64, 64)],
      exec .cinit s = .next a → a.status = .ok → exec p.1 a = .next b → b.status = .ok →
      exec .cinit b = .next c →
      ∃ t, exec p.2.1 c = .next t ∧ t.status = .ok ∧ t.fld.toNat = s.fld.toNat % 2 ^ p.2.2

/-! ### The opaque-payload commands (spec/42_codec_bytes.md) -/

/-- R111, R67: `ENCB` with a legal configuration, a payload within the payload space and a frame that fits
(exactly the capacity included) embeds the frame at position 0: the 64-bit length and then the payload
bytes, most significant bit first. The cursor ends at position `need`; `EXH` is 1 exactly when
`need == Capacity()`. -/
def Obligations.EncbEmbedsFrame : Prop :=
  ∀ s : State, LegalConfig s → FitsPayload s s.len.toNat → s.len.toNat * 8 + 64 ≤ capacity s →
    ∃ t, exec .encb s = .next t ∧
      t = { s with row := t.row, col := t.col, chan := t.chan, plane := t.plane, exh := t.exh,
                   raster := t.raster, cvalid := false, session := .complete, status := .ok } ∧
      pos t = s.len.toNat * 8 + 64 ∧
      (t.exh = true ↔ s.len.toNat * 8 + 64 = capacity s) ∧
      Embedded s t 0 (s.len.toNat * 8 + 64) (bytesFrameBit s) ∧
      (∀ a, (∀ j, j < s.len.toNat * 8 + 64 → a ≠ j % cells s) → readByte .raster a t = readByte .raster a s) ∧
      ∀ a, readByte .payload a t = readByte .payload a s

/-- R111, R145: with a legal configuration `ENCB` raises `PayloadRange`, and then `InsufficientCapacity`,
before any raster byte is touched. -/
def Obligations.EncbPrechecks : Prop :=
  ∀ s : State, LegalConfig s →
    (¬ FitsPayload s s.len.toNat → exec .encb s =
      .next { s with status := .payloadRange, flog := s.flog ||| 0x40#8, session := .failed,
                     cvalid := false }) ∧
    (FitsPayload s s.len.toNat → capacity s < s.len.toNat * 8 + 64 → exec .encb s =
      .next { s with status := .insufficientCapacity, flog := s.flog ||| 0x02#8, session := .failed,
                     cvalid := false })

/-- R112: `DECB` on a raster whose header `L` is plausible and whose body lies within the carrier and the
payload space: `LEN` is the header, payload bytes `0 .. L - 1` are the body, no raster byte changes. -/
def Obligations.DecbReturnsPayload : Prop :=
  ∀ (s : State) (l : Nat), LegalConfig s → l = streamField s 0 64 → 0 < l → l < s.lenlim.toNat →
    FitsPayload s l → 64 + 8 * l ≤ capacity s →
    ∃ t, exec .decb s = .next t ∧
      t = { s with row := t.row, col := t.col, chan := t.chan, plane := t.plane, exh := t.exh,
                   payload := t.payload, len := BitVec.ofNat 64 l, cvalid := false, session := .complete,
                   status := .ok } ∧
      t.len.toNat = l ∧ pos t = 64 + 8 * l ∧
      (t.exh = true ↔ 64 + 8 * l = capacity s) ∧
      Extracted s t 64 l ∧
      ∀ a, readByte .raster a t = readByte .raster a s

/-- R112, R146: a header outside `0 < L < LENLIM` is signalled, not raised: `LEN` keeps the header, `FLOG`
and both memories are unchanged, and the cursor stands at position 64. -/
def Obligations.DecbSignalsAmbiguousHeader : Prop :=
  ∀ (s : State) (l : Nat), LegalConfig s → l = streamField s 0 64 → ¬ (0 < l ∧ l < s.lenlim.toNat) →
    64 ≤ capacity s →
    ∃ t, exec .decb s = .next t ∧
      t = { s with row := t.row, col := t.col, chan := t.chan, plane := t.plane, exh := t.exh,
                   len := BitVec.ofNat 64 l, cvalid := false, session := .complete,
                   status := .ambiguousHeader } ∧
      t.len.toNat = l ∧ pos t = 64 ∧ ∀ sp a, readByte sp a t = readByte sp a s

/-- R112: a carrier of fewer than 64 positions: the header read raises `CapacityExhausted`, `LEN` and both
memories are unchanged, and the cursor is exhausted. -/
def Obligations.DecbHeaderRunsOut : Prop :=
  ∀ s : State, LegalConfig s → capacity s < 64 →
    exec .decb s =
      .next { s with row := 0#16, col := 0#16, chan := 0#8, plane := 7#3, exh := true,
                     status := .capacityExhausted, flog := s.flog ||| 0x04#8, session := .failed,
                     cvalid := false }

/-- R112, R145: a plausible length beyond the payload space raises `PayloadRange` after the header and
before the body: `LEN` holds the header and no memory byte is written. -/
def Obligations.DecbPayloadRange : Prop :=
  ∀ (s : State) (l : Nat), LegalConfig s → l = streamField s 0 64 → 0 < l → l < s.lenlim.toNat →
    ¬ FitsPayload s l → 64 ≤ capacity s →
    ∃ t, exec .decb s = .next t ∧
      t = { s with row := t.row, col := t.col, chan := t.chan, plane := t.plane, exh := t.exh,
                   len := BitVec.ofNat 64 l, status := .payloadRange, flog := s.flog ||| 0x40#8,
                   session := .failed, cvalid := false } ∧
      t.len.toNat = l ∧ pos t = 64 ∧ ∀ sp a, readByte sp a t = readByte sp a s

/-- R112, R144: a plausible body longer than the carrier: the whole bytes that lie in it are read and stay
written, then `CapacityExhausted` is raised on the exhausted cursor; `LEN` holds the header. -/
def Obligations.DecbBodyRunsOut : Prop :=
  ∀ (s : State) (l : Nat), LegalConfig s → l = streamField s 0 64 → 0 < l → l < s.lenlim.toNat →
    FitsPayload s l → 64 ≤ capacity s → capacity s < 64 + 8 * l →
    ∃ t, exec .decb s = .next t ∧
      t = { s with row := 0#16, col := 0#16, chan := 0#8, plane := 7#3, exh := true, payload := t.payload,
                   len := BitVec.ofNat 64 l, status := .capacityExhausted, flog := s.flog ||| 0x04#8,
                   session := .failed, cvalid := false } ∧
      t.len.toNat = l ∧ Extracted s t 64 ((capacity s - 64) / 8) ∧
      ∀ a, readByte .raster a t = readByte .raster a s

/-! ### The nested-image commands (spec/43_codec_image.md) -/

/-- R121, R68: `ENCI` with a legal configuration, a grid within the payload space and a frame that fits
embeds the two 16-bit dimensions and then the grid's bytes in the order of R46, at position 0. -/
def Obligations.EnciEmbedsFrame : Prop :=
  ∀ (s : State) (n : Nat), n = s.imgw.toNat * s.imgh.toNat * 3 → LegalConfig s → FitsPayload s n →
    n * 8 + 32 ≤ capacity s →
    ∃ t, exec .enci s = .next t ∧
      t = { s with row := t.row, col := t.col, chan := t.chan, plane := t.plane, exh := t.exh,
                   raster := t.raster, cvalid := false, session := .complete, status := .ok } ∧
      pos t = n * 8 + 32 ∧
      (t.exh = true ↔ n * 8 + 32 = capacity s) ∧
      Embedded s t 0 (n * 8 + 32) (imageFrameBit s) ∧
      (∀ a, (∀ j, j < n * 8 + 32 → a ≠ j % cells s) → readByte .raster a t = readByte .raster a s) ∧
      ∀ a, readByte .payload a t = readByte .payload a s

/-- R121, R145: with a legal configuration `ENCI` raises `PayloadRange`, and then `InsufficientCapacity`,
before any raster byte is touched. -/
def Obligations.EnciPrechecks : Prop :=
  ∀ (s : State) (n : Nat), n = s.imgw.toNat * s.imgh.toNat * 3 → LegalConfig s →
    (¬ FitsPayload s n → exec .enci s =
      .next { s with status := .payloadRange, flog := s.flog ||| 0x40#8, session := .failed,
                     cvalid := false }) ∧
    (FitsPayload s n → capacity s < n * 8 + 32 → exec .enci s =
      .next { s with status := .insufficientCapacity, flog := s.flog ||| 0x02#8, session := .failed,
                     cvalid := false })

/-- R122: `DECI` on a raster whose width is neither 0 nor above `WLIM` and whose grid lies within the carrier
and the payload space (a height of 0, the empty grid, included). Payload cell `(w * H1 + h) * 3 + chan` is
the byte the frame holds there. -/
def Obligations.DeciReturnsGrid : Prop :=
  ∀ (s : State) (w1 h1 : Nat), LegalConfig s → w1 = streamField s 0 16 → h1 = streamField s 16 16 →
    ¬ (w1 = 0 ∨ s.wlim.toNat < w1) → FitsPayload s (w1 * h1 * 3) → 32 + 8 * (w1 * h1 * 3) ≤ capacity s →
    ∃ t, exec .deci s = .next t ∧
      t = { s with row := t.row, col := t.col, chan := t.chan, plane := t.plane, exh := t.exh,
                   payload := t.payload, imgw := BitVec.ofNat 16 w1, imgh := BitVec.ofNat 16 h1,
                   cvalid := false, session := .complete, status := .ok } ∧
      t.imgw.toNat = w1 ∧ t.imgh.toNat = h1 ∧ pos t = 32 + 8 * (w1 * h1 * 3) ∧
      (t.exh = true ↔ 32 + 8 * (w1 * h1 * 3) = capacity s) ∧
      Extracted s t 32 (w1 * h1 * 3) ∧
      ∀ a, readByte .raster a t = readByte .raster a s

/-- R122, R146: a width of 0 or above `WLIM` is signalled, whatever the height. -/
def Obligations.DeciSignalsAmbiguousHeader : Prop :=
  ∀ (s : State) (w1 h1 : Nat), LegalConfig s → w1 = streamField s 0 16 → h1 = streamField s 16 16 →
    (w1 = 0 ∨ s.wlim.toNat < w1) → 32 ≤ capacity s →
    ∃ t, exec .deci s = .next t ∧
      t = { s with row := t.row, col := t.col, chan := t.chan, plane := t.plane, exh := t.exh,
                   imgw := BitVec.ofNat 16 w1, imgh := BitVec.ofNat 16 h1, cvalid := false,
                   session := .complete, status := .ambiguousHeader } ∧
      t.imgw.toNat = w1 ∧ t.imgh.toNat = h1 ∧ pos t = 32 ∧ ∀ sp a, readByte sp a t = readByte sp a s

/-- R122: a carrier of fewer than 32 positions: a header read raises `CapacityExhausted`; `IMGW` and `IMGH`
are both unchanged. -/
def Obligations.DeciHeaderRunsOut : Prop :=
  ∀ s : State, LegalConfig s → capacity s < 32 →
    exec .deci s =
      .next { s with row := 0#16, col := 0#16, chan := 0#8, plane := 7#3, exh := true,
                     status := .capacityExhausted, flog := s.flog ||| 0x04#8, session := .failed,
                     cvalid := false }

/-- R122, R145: a grid beyond the payload space raises `PayloadRange` after the header and before the body. -/
def Obligations.DeciPayloadRange : Prop :=
  ∀ (s : State) (w1 h1 : Nat), LegalConfig s → w1 = streamField s 0 16 → h1 = streamField s 16 16 →
    ¬ (w1 = 0 ∨ s.wlim.toNat < w1) → ¬ FitsPayload s (w1 * h1 * 3) → 32 ≤ capacity s →
    ∃ t, exec .deci s = .next t ∧
      t = { s with row := t.row, col := t.col, chan := t.chan, plane := t.plane, exh := t.exh,
                   imgw := BitVec.ofNat 16 w1, imgh := BitVec.ofNat 16 h1, status := .payloadRange,
                   flog := s.flog ||| 0x40#8, session := .failed, cvalid := false } ∧
      t.imgw.toNat = w1 ∧ t.imgh.toNat = h1 ∧ pos t = 32 ∧ ∀ sp a, readByte sp a t = readByte sp a s

/-- R122, R144: a plausible grid larger than the carrier: the whole bytes that lie in it are read and stay
written, then `CapacityExhausted` is raised; `IMGW` and `IMGH` hold the decoded header. -/
def Obligations.DeciBodyRunsOut : Prop :=
  ∀ (s : State) (w1 h1 : Nat), LegalConfig s → w1 = streamField s 0 16 → h1 = streamField s 16 16 →
    ¬ (w1 = 0 ∨ s.wlim.toNat < w1) → FitsPayload s (w1 * h1 * 3) → 32 ≤ capacity s →
    capacity s < 32 + 8 * (w1 * h1 * 3) →
    ∃ t, exec .deci s = .next t ∧
      t = { s with row := 0#16, col := 0#16, chan := 0#8, plane := 7#3, exh := true, payload := t.payload,
                   imgw := BitVec.ofNat 16 w1, imgh := BitVec.ofNat 16 h1, status := .capacityExhausted,
                   flog := s.flog ||| 0x04#8, session := .failed, cvalid := false } ∧
      t.imgw.toNat = w1 ∧ t.imgh.toNat = h1 ∧ Extracted s t 32 ((capacity s - 32) / 8) ∧
      ∀ a, readByte .raster a t = readByte .raster a s

/-! ### Round trips and the two shapes -/

/-- R113: after an `ENCB` that ended with `OK`, a `DECB` with the same carrier and sizes, whatever else
the host has written in between (the payload space and `LEN` among it), ends with `OK`, the same `LEN` and
the same payload bytes exactly when `0 < LEN < LENLIM`, and otherwise with `AmbiguousHeader` and the same
`LEN`. -/
def Obligations.BytesRoundTrip : Prop :=
  ∀ s t t' : State, exec .encb s = .next t → t.status = .ok →
    t'.w = t.w → t'.h = t.h → t'.c = t.c → t'.rasterSize = t.rasterSize → t'.pbufSize = t.pbufSize →
    (∀ a, readByte .raster a t' = readByte .raster a t) →
    ∃ u, exec .decb t' = .next u ∧ u.len = s.len ∧
      (0 < s.len.toNat ∧ s.len.toNat < t'.lenlim.toNat →
        u.status = .ok ∧ ∀ k, k < s.len.toNat → readByte .payload k u = readByte .payload k s) ∧
      (¬ (0 < s.len.toNat ∧ s.len.toNat < t'.lenlim.toNat) → u.status = .ambiguousHeader)

/-- R123: the same for a nested image: `OK`, the same dimensions and the same grid exactly when
`1 <= W1 <= WLIM`, and otherwise `AmbiguousHeader`. -/
def Obligations.ImageRoundTrip : Prop :=
  ∀ s t t' : State, exec .enci s = .next t → t.status = .ok →
    t'.w = t.w → t'.h = t.h → t'.c = t.c → t'.rasterSize = t.rasterSize → t'.pbufSize = t.pbufSize →
    (∀ a, readByte .raster a t' = readByte .raster a t) →
    ∃ u, exec .deci t' = .next u ∧ u.imgw = s.imgw ∧ u.imgh = s.imgh ∧
      (1 ≤ s.imgw.toNat ∧ s.imgw.toNat ≤ t'.wlim.toNat →
        u.status = .ok ∧
        ∀ k, k < s.imgw.toNat * s.imgh.toNat * 3 → readByte .payload k u = readByte .payload k s) ∧
      (¬ (1 ≤ s.imgw.toNat ∧ s.imgw.toNat ≤ t'.wlim.toNat) → u.status = .ambiguousHeader)

/-- R124, R69: a frame written by `ENCB` with `LEN < 2^32` reads back in `DECI` as `W1 = 0`, so `DECI`
reports `AmbiguousHeader`. -/
def Obligations.OpaqueFrameIsNoImage : Prop :=
  ∀ s t t' : State, exec .encb s = .next t → t.status = .ok → s.len.toNat < 2 ^ 32 →
    t'.w = t.w → t'.h = t.h → t'.c = t.c → t'.rasterSize = t.rasterSize →
    (∀ a, readByte .raster a t' = readByte .raster a t) →
    ∃ u, exec .deci t' = .next u ∧ u.imgw = 0#16 ∧ u.status = .ambiguousHeader ∧ u.flog = t'.flog

/-- R124, R69: a frame written by `ENCI` with `W1 >= 1` reads back in `DECB`, whatever `LENLIM` and
`PBUF_SIZE` are, as a length of at least `2^48` when `Capacity() >= 64`, so that `DECB` reports
`AmbiguousHeader` whenever also `LENLIM <= 2^48`; when `Capacity() < 64` it raises `CapacityExhausted`
instead. -/
def Obligations.ImageFrameIsNoOpaquePayload : Prop :=
  ∀ s t t' : State, exec .enci s = .next t → t.status = .ok → 1 ≤ s.imgw.toNat →
    t'.w = t.w → t'.h = t.h → t'.c = t.c → t'.rasterSize = t.rasterSize →
    (∀ a, readByte .raster a t' = readByte .raster a t) →
    (64 ≤ capacity t' →
      ∃ u, exec .decb t' = .next u ∧ 2 ^ 48 ≤ u.len.toNat ∧
        (t'.lenlim.toNat ≤ 2 ^ 48 → u.status = .ambiguousHeader ∧ u.flog = t'.flog)) ∧
    (capacity t' < 64 → ∃ u, exec .decb t' = .next u ∧ u.len = t'.len ∧ u.status = .capacityExhausted)

/-! ### Housekeeping (spec/44_system.md) -/

/-- R130: `CLRF`, the word 0xC0, writes `FLOG` and `STATUS` and nothing else, in every state; it does not
leave `FAILED` and does not revive a cursor. -/
def Obligations.ClrfClearsLog : Prop :=
  ∀ s : State,
    exec .clrf s = .next { s with flog := 0#8, status := .ok } ∧
    issue 0xC0#8 s = .next { s with flog := 0#8, status := .ok }

/-- R143: `raise` with the cause of code `k` ends the command, whatever lines were still to come: `STATUS` is
the code, bit `k` of `FLOG` is set and the other bits keep their values, `STATE` is `FAILED`, `CVALID` is 0,
and nothing else changes. -/
def Obligations.RaiseEndsTheCommand : Prop :=
  ∀ (k : Cause) (s : State) (next : Unit → State → Flow Unit),
    ∃ t c, endCommand ((Flow.raised k s).bind next) = .next t ∧
      c = (match k with
        | .insufficientCapacity => 1 | .capacityExhausted => 2 | .noCursor => 4 | .badConfig => 5
        | .payloadRange => 6 | .illegalCommand => 7) ∧
      t = { s with status := t.status, flog := t.flog, session := .failed, cvalid := false } ∧
      (statusCode t.status).toNat = c ∧
      ∀ j, j < 8 → t.flog.getLsbD j = (s.flog.getLsbD j || decide (j = c))

/-! ### The invariant and the whole machine -/

/-- The invariant holds after reset. -/
def Obligations.ResetMeetsInvariant : Prop := Inv State.reset

/-- Every step keeps the invariant, whatever the host does in it: a live cursor stays within its bounds
(R14), an exhausted one at `(0,0,0,7)`, `STATE` stays `IDLE`, `COMPLETE` or `FAILED` (R18), bits 0 and 3 of
`FLOG` stay 0 (R20), and both memories stay in canonical form and within their spaces. -/
def Obligations.StepKeepsInvariant : Prop :=
  ∀ s t : State, Inv s → step s = .next t → Inv t

/-- R131: `Issue` is total: from every state that meets the invariant each of the 256 words has an end
state. -/
def Obligations.IssueAlwaysCompletes : Prop :=
  ∀ s : State, Inv s → ∀ word : Byte, ∃ t, issue word s = .next t

/-- R42, R45, R55: from a state that meets the invariant the engine never makes an access outside a
space, so no step faults, and the only refusal is of a host memory access at an address its space does not
have. The names of the stops and the refusal itself are the model's (log entries 5 and 6, from I22). -/
def Obligations.OnlyOutsideHostAccessesStop : Prop :=
  ∀ s : State, Inv s →
    (∀ f, step s ≠ .fault f) ∧
    ∀ r, step s = .refused r →
      ∃ sp a rest, (s.input = .memRead sp a :: rest ∨ ∃ v, s.input = .memWrite sp a v :: rest) ∧
        inSpace (sizeOfSpace sp s) a = false ∧ r = .hostAddress sp

/-- R12, R13, R11: no command writes the configuration or the bounds, and none changes the sizes or the
host's coming actions. -/
def Obligations.EngineKeepsConfiguration : Prop :=
  ∀ (i : Instr) (s t : State), exec i s = .next t →
    t.w = s.w ∧ t.h = s.h ∧ t.c = s.c ∧ t.lenlim = s.lenlim ∧ t.wlim = s.wlim ∧
    t.rasterSize = s.rasterSize ∧ t.pbufSize = s.pbufSize ∧ t.input = s.input

/-- R19, R20, R143, R146: how a command may end. With `OK`, the log as it was (or cleared, by `CLRF`); with
`AmbiguousHeader`, the log as it was, `STATE` `COMPLETE` and the cursor released; or with a fatal cause whose
bit, and no other, is added to the log, `STATE` `FAILED` and the cursor released. -/
def Obligations.OutcomeLogAndStateAgree : Prop :=
  ∀ (i : Instr) (s t : State), exec i s = .next t →
    (t.status = .ok ∧ t.flog = (if i = .clrf then 0#8 else s.flog)) ∨
    (t.status = .ambiguousHeader ∧ (i = .decb ∨ i = .deci) ∧ t.flog = s.flog ∧ t.session = .complete ∧
      t.cvalid = false) ∨
    (∃ k, (t.status, k) ∈ [(Status.insufficientCapacity, 1), (.capacityExhausted, 2), (.noCursor, 4),
        (.badConfig, 5), (.payloadRange, 6)] ∧
      (∀ j, j < 8 → t.flog.getLsbD j = (s.flog.getLsbD j || decide (j = k))) ∧
      t.session = .failed ∧ t.cvalid = false)

/-- R17, D40: `BITQ` is written by the `RBIT` command and by no other. -/
def Obligations.OnlyRbitWritesBitq : Prop :=
  ∀ (i : Instr) (s t : State), exec i s = .next t → i ≠ .rbit → t.bitq = s.bitq

/-- R21: `FLD` is written only by `RFLD`, `LEN` only by `DECB`, `IMGW` and `IMGH` only by `DECI`. -/
def Obligations.DataRegisterWriters : Prop :=
  ∀ (i : Instr) (s t : State), exec i s = .next t →
    (i ∉ [Instr.rfld8, .rfld16, .rfld64] → t.fld = s.fld) ∧
    (i ≠ .decb → t.len = s.len) ∧
    (i ≠ .deci → t.imgw = s.imgw ∧ t.imgh = s.imgh)

/-- R18: `CINIT` leaves `IDLE`, a macro command `COMPLETE`, every command that raises `FAILED`; the other
commands do not write `STATE` unless they raise. -/
def Obligations.SessionStateWriters : Prop :=
  ∀ (i : Instr) (s t : State), exec i s = .next t →
    if t.status = .ok ∨ t.status = .ambiguousHeader then
      if i = .cinit then t.session = .idle
      else if i ∈ [Instr.encb, .decb, .enci, .deci] then t.session = .complete
      else t.session = s.session
    else t.session = .failed

/-- R50, R43: only `WBIT`, `WFLD`, `ENCB` and `ENCI` write the raster: every other command leaves every
byte of it, however it ends. -/
def Obligations.ReadersLeaveRaster : Prop :=
  ∀ (i : Instr) (s t : State), exec i s = .next t →
    i ∈ [Instr.cinit, .rbit, .rfld8, .rfld16, .rfld64, .decb, .deci, .clrf] →
    ∀ a, readByte .raster a t = readByte .raster a s

/-- R45: only `DECB` and `DECI` write the payload space: every other command leaves every byte of it. -/
def Obligations.OnlyDecodersWritePayload : Prop :=
  ∀ (i : Instr) (s t : State), exec i s = .next t → i ≠ .decb → i ≠ .deci →
    ∀ a, readByte .payload a t = readByte .payload a s

/-- R144: a command that raises `NoCursor`, `BadConfig`, `PayloadRange` or `InsufficientCapacity`, or whose
header is ambiguous, leaves both memories as they were. -/
def Obligations.EarlyEndsLeaveMemories : Prop :=
  ∀ (i : Instr) (s t : State), exec i s = .next t →
    t.status ∈ [Status.noCursor, .badConfig, .payloadRange, .insufficientCapacity, .ambiguousHeader] →
    ∀ sp a, readByte sp a t = readByte sp a s

/-- R140, R111, R121: `ENCB` and `ENCI` cannot raise `CapacityExhausted`, and one that does not end with `OK`
leaves the carrier and the cursor position unmodified. -/
def Obligations.FailingEncodeLeavesCarrier : Prop :=
  ∀ (i : Instr) (s t : State), i = .encb ∨ i = .enci → exec i s = .next t →
    t.status ≠ .capacityExhausted ∧
    (t.status ≠ .ok →
      (∀ a, readByte .raster a t = readByte .raster a s) ∧
      t.row = s.row ∧ t.col = s.col ∧ t.chan = s.chan ∧ t.plane = s.plane ∧ t.exh = s.exh)
end

