-- ==== Sys2Proof/Laws/State.lean ====
section
/-! SUPPORT. The field lemmas: for each named update of the state, what every field holds after it. -/

namespace Sys2Proof.Machine

/-! ### Taking a fault (R143) -/

@[simp] theorem takeFault_w (k : Cause) (s : State) : (takeFault k s).w = s.w := rfl
@[simp] theorem takeFault_h (k : Cause) (s : State) : (takeFault k s).h = s.h := rfl
@[simp] theorem takeFault_c (k : Cause) (s : State) : (takeFault k s).c = s.c := rfl
@[simp] theorem takeFault_lenlim (k : Cause) (s : State) : (takeFault k s).lenlim = s.lenlim := rfl
@[simp] theorem takeFault_wlim (k : Cause) (s : State) : (takeFault k s).wlim = s.wlim := rfl
@[simp] theorem takeFault_row (k : Cause) (s : State) : (takeFault k s).row = s.row := rfl
@[simp] theorem takeFault_col (k : Cause) (s : State) : (takeFault k s).col = s.col := rfl
@[simp] theorem takeFault_chan (k : Cause) (s : State) : (takeFault k s).chan = s.chan := rfl
@[simp] theorem takeFault_plane (k : Cause) (s : State) : (takeFault k s).plane = s.plane := rfl
@[simp] theorem takeFault_cvalid (k : Cause) (s : State) : (takeFault k s).cvalid = false := rfl
@[simp] theorem takeFault_exh (k : Cause) (s : State) : (takeFault k s).exh = s.exh := rfl
@[simp] theorem takeFault_bitq (k : Cause) (s : State) : (takeFault k s).bitq = s.bitq := rfl
@[simp] theorem takeFault_session (k : Cause) (s : State) : (takeFault k s).session = .failed := rfl
@[simp] theorem takeFault_status (k : Cause) (s : State) : (takeFault k s).status = causeStatus k := rfl
@[simp] theorem takeFault_flog (k : Cause) (s : State) : (takeFault k s).flog = logCause k s.flog := rfl
@[simp] theorem takeFault_fld (k : Cause) (s : State) : (takeFault k s).fld = s.fld := rfl
@[simp] theorem takeFault_len (k : Cause) (s : State) : (takeFault k s).len = s.len := rfl
@[simp] theorem takeFault_imgw (k : Cause) (s : State) : (takeFault k s).imgw = s.imgw := rfl
@[simp] theorem takeFault_imgh (k : Cause) (s : State) : (takeFault k s).imgh = s.imgh := rfl
@[simp] theorem takeFault_raster (k : Cause) (s : State) : (takeFault k s).raster = s.raster := rfl
@[simp] theorem takeFault_payload (k : Cause) (s : State) : (takeFault k s).payload = s.payload := rfl
@[simp] theorem takeFault_rasterSize (k : Cause) (s : State) : (takeFault k s).rasterSize = s.rasterSize := rfl
@[simp] theorem takeFault_pbufSize (k : Cause) (s : State) : (takeFault k s).pbufSize = s.pbufSize := rfl
@[simp] theorem takeFault_input (k : Cause) (s : State) : (takeFault k s).input = s.input := rfl

/-! ### Signalling an ambiguous header (R146) -/

@[simp] theorem signalAmbiguous_w (s : State) : (signalAmbiguous s).w = s.w := rfl
@[simp] theorem signalAmbiguous_h (s : State) : (signalAmbiguous s).h = s.h := rfl
@[simp] theorem signalAmbiguous_c (s : State) : (signalAmbiguous s).c = s.c := rfl
@[simp] theorem signalAmbiguous_lenlim (s : State) : (signalAmbiguous s).lenlim = s.lenlim := rfl
@[simp] theorem signalAmbiguous_wlim (s : State) : (signalAmbiguous s).wlim = s.wlim := rfl
@[simp] theorem signalAmbiguous_row (s : State) : (signalAmbiguous s).row = s.row := rfl
@[simp] theorem signalAmbiguous_col (s : State) : (signalAmbiguous s).col = s.col := rfl
@[simp] theorem signalAmbiguous_chan (s : State) : (signalAmbiguous s).chan = s.chan := rfl
@[simp] theorem signalAmbiguous_plane (s : State) : (signalAmbiguous s).plane = s.plane := rfl
@[simp] theorem signalAmbiguous_cvalid (s : State) : (signalAmbiguous s).cvalid = false := rfl
@[simp] theorem signalAmbiguous_exh (s : State) : (signalAmbiguous s).exh = s.exh := rfl
@[simp] theorem signalAmbiguous_bitq (s : State) : (signalAmbiguous s).bitq = s.bitq := rfl
@[simp] theorem signalAmbiguous_session (s : State) : (signalAmbiguous s).session = .complete := rfl
@[simp] theorem signalAmbiguous_status (s : State) : (signalAmbiguous s).status = .ambiguousHeader := rfl
@[simp] theorem signalAmbiguous_flog (s : State) : (signalAmbiguous s).flog = s.flog := rfl
@[simp] theorem signalAmbiguous_fld (s : State) : (signalAmbiguous s).fld = s.fld := rfl
@[simp] theorem signalAmbiguous_len (s : State) : (signalAmbiguous s).len = s.len := rfl
@[simp] theorem signalAmbiguous_imgw (s : State) : (signalAmbiguous s).imgw = s.imgw := rfl
@[simp] theorem signalAmbiguous_imgh (s : State) : (signalAmbiguous s).imgh = s.imgh := rfl
@[simp] theorem signalAmbiguous_raster (s : State) : (signalAmbiguous s).raster = s.raster := rfl
@[simp] theorem signalAmbiguous_payload (s : State) : (signalAmbiguous s).payload = s.payload := rfl
@[simp] theorem signalAmbiguous_rasterSize (s : State) : (signalAmbiguous s).rasterSize = s.rasterSize := rfl
@[simp] theorem signalAmbiguous_pbufSize (s : State) : (signalAmbiguous s).pbufSize = s.pbufSize := rfl
@[simp] theorem signalAmbiguous_input (s : State) : (signalAmbiguous s).input = s.input := rfl

/-! ### A successful end (R19) -/

@[simp] theorem succeed_w (s : State) : (succeed s).w = s.w := rfl
@[simp] theorem succeed_h (s : State) : (succeed s).h = s.h := rfl
@[simp] theorem succeed_c (s : State) : (succeed s).c = s.c := rfl
@[simp] theorem succeed_lenlim (s : State) : (succeed s).lenlim = s.lenlim := rfl
@[simp] theorem succeed_wlim (s : State) : (succeed s).wlim = s.wlim := rfl
@[simp] theorem succeed_row (s : State) : (succeed s).row = s.row := rfl
@[simp] theorem succeed_col (s : State) : (succeed s).col = s.col := rfl
@[simp] theorem succeed_chan (s : State) : (succeed s).chan = s.chan := rfl
@[simp] theorem succeed_plane (s : State) : (succeed s).plane = s.plane := rfl
@[simp] theorem succeed_cvalid (s : State) : (succeed s).cvalid = s.cvalid := rfl
@[simp] theorem succeed_exh (s : State) : (succeed s).exh = s.exh := rfl
@[simp] theorem succeed_bitq (s : State) : (succeed s).bitq = s.bitq := rfl
@[simp] theorem succeed_session (s : State) : (succeed s).session = s.session := rfl
@[simp] theorem succeed_status (s : State) : (succeed s).status = .ok := rfl
@[simp] theorem succeed_flog (s : State) : (succeed s).flog = s.flog := rfl
@[simp] theorem succeed_fld (s : State) : (succeed s).fld = s.fld := rfl
@[simp] theorem succeed_len (s : State) : (succeed s).len = s.len := rfl
@[simp] theorem succeed_imgw (s : State) : (succeed s).imgw = s.imgw := rfl
@[simp] theorem succeed_imgh (s : State) : (succeed s).imgh = s.imgh := rfl
@[simp] theorem succeed_raster (s : State) : (succeed s).raster = s.raster := rfl
@[simp] theorem succeed_payload (s : State) : (succeed s).payload = s.payload := rfl
@[simp] theorem succeed_rasterSize (s : State) : (succeed s).rasterSize = s.rasterSize := rfl
@[simp] theorem succeed_pbufSize (s : State) : (succeed s).pbufSize = s.pbufSize := rfl
@[simp] theorem succeed_input (s : State) : (succeed s).input = s.input := rfl

/-! ### `CursorInit()` (R80) -/

@[simp] theorem cursorInit_w (s : State) : (cursorInit s).w = s.w := rfl
@[simp] theorem cursorInit_h (s : State) : (cursorInit s).h = s.h := rfl
@[simp] theorem cursorInit_c (s : State) : (cursorInit s).c = s.c := rfl
@[simp] theorem cursorInit_lenlim (s : State) : (cursorInit s).lenlim = s.lenlim := rfl
@[simp] theorem cursorInit_wlim (s : State) : (cursorInit s).wlim = s.wlim := rfl
@[simp] theorem cursorInit_row (s : State) : (cursorInit s).row = 0#16 := rfl
@[simp] theorem cursorInit_col (s : State) : (cursorInit s).col = 0#16 := rfl
@[simp] theorem cursorInit_chan (s : State) : (cursorInit s).chan = 0#8 := rfl
@[simp] theorem cursorInit_plane (s : State) : (cursorInit s).plane = 0#3 := rfl
@[simp] theorem cursorInit_cvalid (s : State) : (cursorInit s).cvalid = true := rfl
@[simp] theorem cursorInit_exh (s : State) : (cursorInit s).exh = false := rfl
@[simp] theorem cursorInit_bitq (s : State) : (cursorInit s).bitq = s.bitq := rfl
@[simp] theorem cursorInit_session (s : State) : (cursorInit s).session = s.session := rfl
@[simp] theorem cursorInit_status (s : State) : (cursorInit s).status = s.status := rfl
@[simp] theorem cursorInit_flog (s : State) : (cursorInit s).flog = s.flog := rfl
@[simp] theorem cursorInit_fld (s : State) : (cursorInit s).fld = s.fld := rfl
@[simp] theorem cursorInit_len (s : State) : (cursorInit s).len = s.len := rfl
@[simp] theorem cursorInit_imgw (s : State) : (cursorInit s).imgw = s.imgw := rfl
@[simp] theorem cursorInit_imgh (s : State) : (cursorInit s).imgh = s.imgh := rfl
@[simp] theorem cursorInit_raster (s : State) : (cursorInit s).raster = s.raster := rfl
@[simp] theorem cursorInit_payload (s : State) : (cursorInit s).payload = s.payload := rfl
@[simp] theorem cursorInit_rasterSize (s : State) : (cursorInit s).rasterSize = s.rasterSize := rfl
@[simp] theorem cursorInit_pbufSize (s : State) : (cursorInit s).pbufSize = s.pbufSize := rfl
@[simp] theorem cursorInit_input (s : State) : (cursorInit s).input = s.input := rfl

/-! ### `STATE <- v` -/

@[simp] theorem setSession_w (v : Session) (s : State) : (setSession v s).w = s.w := rfl
@[simp] theorem setSession_h (v : Session) (s : State) : (setSession v s).h = s.h := rfl
@[simp] theorem setSession_c (v : Session) (s : State) : (setSession v s).c = s.c := rfl
@[simp] theorem setSession_lenlim (v : Session) (s : State) : (setSession v s).lenlim = s.lenlim := rfl
@[simp] theorem setSession_wlim (v : Session) (s : State) : (setSession v s).wlim = s.wlim := rfl
@[simp] theorem setSession_row (v : Session) (s : State) : (setSession v s).row = s.row := rfl
@[simp] theorem setSession_col (v : Session) (s : State) : (setSession v s).col = s.col := rfl
@[simp] theorem setSession_chan (v : Session) (s : State) : (setSession v s).chan = s.chan := rfl
@[simp] theorem setSession_plane (v : Session) (s : State) : (setSession v s).plane = s.plane := rfl
@[simp] theorem setSession_cvalid (v : Session) (s : State) : (setSession v s).cvalid = s.cvalid := rfl
@[simp] theorem setSession_exh (v : Session) (s : State) : (setSession v s).exh = s.exh := rfl
@[simp] theorem setSession_bitq (v : Session) (s : State) : (setSession v s).bitq = s.bitq := rfl
@[simp] theorem setSession_session (v : Session) (s : State) : (setSession v s).session = v := rfl
@[simp] theorem setSession_status (v : Session) (s : State) : (setSession v s).status = s.status := rfl
@[simp] theorem setSession_flog (v : Session) (s : State) : (setSession v s).flog = s.flog := rfl
@[simp] theorem setSession_fld (v : Session) (s : State) : (setSession v s).fld = s.fld := rfl
@[simp] theorem setSession_len (v : Session) (s : State) : (setSession v s).len = s.len := rfl
@[simp] theorem setSession_imgw (v : Session) (s : State) : (setSession v s).imgw = s.imgw := rfl
@[simp] theorem setSession_imgh (v : Session) (s : State) : (setSession v s).imgh = s.imgh := rfl
@[simp] theorem setSession_raster (v : Session) (s : State) : (setSession v s).raster = s.raster := rfl
@[simp] theorem setSession_payload (v : Session) (s : State) : (setSession v s).payload = s.payload := rfl
@[simp] theorem setSession_rasterSize (v : Session) (s : State) : (setSession v s).rasterSize = s.rasterSize := rfl
@[simp] theorem setSession_pbufSize (v : Session) (s : State) : (setSession v s).pbufSize = s.pbufSize := rfl
@[simp] theorem setSession_input (v : Session) (s : State) : (setSession v s).input = s.input := rfl

/-! ### A session opens -/

@[simp] theorem openSession_w (s : State) : (openSession s).w = s.w := rfl
@[simp] theorem openSession_h (s : State) : (openSession s).h = s.h := rfl
@[simp] theorem openSession_c (s : State) : (openSession s).c = s.c := rfl
@[simp] theorem openSession_lenlim (s : State) : (openSession s).lenlim = s.lenlim := rfl
@[simp] theorem openSession_wlim (s : State) : (openSession s).wlim = s.wlim := rfl
@[simp] theorem openSession_row (s : State) : (openSession s).row = 0#16 := rfl
@[simp] theorem openSession_col (s : State) : (openSession s).col = 0#16 := rfl
@[simp] theorem openSession_chan (s : State) : (openSession s).chan = 0#8 := rfl
@[simp] theorem openSession_plane (s : State) : (openSession s).plane = 0#3 := rfl
@[simp] theorem openSession_cvalid (s : State) : (openSession s).cvalid = true := rfl
@[simp] theorem openSession_exh (s : State) : (openSession s).exh = false := rfl
@[simp] theorem openSession_bitq (s : State) : (openSession s).bitq = s.bitq := rfl
@[simp] theorem openSession_session (s : State) : (openSession s).session = .idle := rfl
@[simp] theorem openSession_status (s : State) : (openSession s).status = s.status := rfl
@[simp] theorem openSession_flog (s : State) : (openSession s).flog = s.flog := rfl
@[simp] theorem openSession_fld (s : State) : (openSession s).fld = s.fld := rfl
@[simp] theorem openSession_len (s : State) : (openSession s).len = s.len := rfl
@[simp] theorem openSession_imgw (s : State) : (openSession s).imgw = s.imgw := rfl
@[simp] theorem openSession_imgh (s : State) : (openSession s).imgh = s.imgh := rfl
@[simp] theorem openSession_raster (s : State) : (openSession s).raster = s.raster := rfl
@[simp] theorem openSession_payload (s : State) : (openSession s).payload = s.payload := rfl
@[simp] theorem openSession_rasterSize (s : State) : (openSession s).rasterSize = s.rasterSize := rfl
@[simp] theorem openSession_pbufSize (s : State) : (openSession s).pbufSize = s.pbufSize := rfl
@[simp] theorem openSession_input (s : State) : (openSession s).input = s.input := rfl

/-! ### A macro command closes its session -/

@[simp] theorem closeSession_w (s : State) : (closeSession s).w = s.w := rfl
@[simp] theorem closeSession_h (s : State) : (closeSession s).h = s.h := rfl
@[simp] theorem closeSession_c (s : State) : (closeSession s).c = s.c := rfl
@[simp] theorem closeSession_lenlim (s : State) : (closeSession s).lenlim = s.lenlim := rfl
@[simp] theorem closeSession_wlim (s : State) : (closeSession s).wlim = s.wlim := rfl
@[simp] theorem closeSession_row (s : State) : (closeSession s).row = s.row := rfl
@[simp] theorem closeSession_col (s : State) : (closeSession s).col = s.col := rfl
@[simp] theorem closeSession_chan (s : State) : (closeSession s).chan = s.chan := rfl
@[simp] theorem closeSession_plane (s : State) : (closeSession s).plane = s.plane := rfl
@[simp] theorem closeSession_cvalid (s : State) : (closeSession s).cvalid = false := rfl
@[simp] theorem closeSession_exh (s : State) : (closeSession s).exh = s.exh := rfl
@[simp] theorem closeSession_bitq (s : State) : (closeSession s).bitq = s.bitq := rfl
@[simp] theorem closeSession_session (s : State) : (closeSession s).session = .complete := rfl
@[simp] theorem closeSession_status (s : State) : (closeSession s).status = s.status := rfl
@[simp] theorem closeSession_flog (s : State) : (closeSession s).flog = s.flog := rfl
@[simp] theorem closeSession_fld (s : State) : (closeSession s).fld = s.fld := rfl
@[simp] theorem closeSession_len (s : State) : (closeSession s).len = s.len := rfl
@[simp] theorem closeSession_imgw (s : State) : (closeSession s).imgw = s.imgw := rfl
@[simp] theorem closeSession_imgh (s : State) : (closeSession s).imgh = s.imgh := rfl
@[simp] theorem closeSession_raster (s : State) : (closeSession s).raster = s.raster := rfl
@[simp] theorem closeSession_payload (s : State) : (closeSession s).payload = s.payload := rfl
@[simp] theorem closeSession_rasterSize (s : State) : (closeSession s).rasterSize = s.rasterSize := rfl
@[simp] theorem closeSession_pbufSize (s : State) : (closeSession s).pbufSize = s.pbufSize := rfl
@[simp] theorem closeSession_input (s : State) : (closeSession s).input = s.input := rfl

/-! ### A byte is written (R42, R45) -/

@[simp] theorem writeByte_w (sp : Space) (a : Nat) (v : Byte) (s : State) : (writeByte sp a v s).w = s.w := by
  cases sp <;> rfl
@[simp] theorem writeByte_h (sp : Space) (a : Nat) (v : Byte) (s : State) : (writeByte sp a v s).h = s.h := by
  cases sp <;> rfl
@[simp] theorem writeByte_c (sp : Space) (a : Nat) (v : Byte) (s : State) : (writeByte sp a v s).c = s.c := by
  cases sp <;> rfl
@[simp] theorem writeByte_lenlim (sp : Space) (a : Nat) (v : Byte) (s : State) : (writeByte sp a v s).lenlim = s.lenlim := by
  cases sp <;> rfl
@[simp] theorem writeByte_wlim (sp : Space) (a : Nat) (v : Byte) (s : State) : (writeByte sp a v s).wlim = s.wlim := by
  cases sp <;> rfl
@[simp] theorem writeByte_row (sp : Space) (a : Nat) (v : Byte) (s : State) : (writeByte sp a v s).row = s.row := by
  cases sp <;> rfl
@[simp] theorem writeByte_col (sp : Space) (a : Nat) (v : Byte) (s : State) : (writeByte sp a v s).col = s.col := by
  cases sp <;> rfl
@[simp] theorem writeByte_chan (sp : Space) (a : Nat) (v : Byte) (s : State) : (writeByte sp a v s).chan = s.chan := by
  cases sp <;> rfl
@[simp] theorem writeByte_plane (sp : Space) (a : Nat) (v : Byte) (s : State) : (writeByte sp a v s).plane = s.plane := by
  cases sp <;> rfl
@[simp] theorem writeByte_cvalid (sp : Space) (a : Nat) (v : Byte) (s : State) : (writeByte sp a v s).cvalid = s.cvalid := by
  cases sp <;> rfl
@[simp] theorem writeByte_exh (sp : Space) (a : Nat) (v : Byte) (s : State) : (writeByte sp a v s).exh = s.exh := by
  cases sp <;> rfl
@[simp] theorem writeByte_bitq (sp : Space) (a : Nat) (v : Byte) (s : State) : (writeByte sp a v s).bitq = s.bitq := by
  cases sp <;> rfl
@[simp] theorem writeByte_session (sp : Space) (a : Nat) (v : Byte) (s : State) : (writeByte sp a v s).session = s.session := by
  cases sp <;> rfl
@[simp] theorem writeByte_status (sp : Space) (a : Nat) (v : Byte) (s : State) : (writeByte sp a v s).status = s.status := by
  cases sp <;> rfl
@[simp] theorem writeByte_flog (sp : Space) (a : Nat) (v : Byte) (s : State) : (writeByte sp a v s).flog = s.flog := by
  cases sp <;> rfl
@[simp] theorem writeByte_fld (sp : Space) (a : Nat) (v : Byte) (s : State) : (writeByte sp a v s).fld = s.fld := by
  cases sp <;> rfl
@[simp] theorem writeByte_len (sp : Space) (a : Nat) (v : Byte) (s : State) : (writeByte sp a v s).len = s.len := by
  cases sp <;> rfl
@[simp] theorem writeByte_imgw (sp : Space) (a : Nat) (v : Byte) (s : State) : (writeByte sp a v s).imgw = s.imgw := by
  cases sp <;> rfl
@[simp] theorem writeByte_imgh (sp : Space) (a : Nat) (v : Byte) (s : State) : (writeByte sp a v s).imgh = s.imgh := by
  cases sp <;> rfl
@[simp] theorem writeByte_rasterSize (sp : Space) (a : Nat) (v : Byte) (s : State) : (writeByte sp a v s).rasterSize = s.rasterSize := by
  cases sp <;> rfl
@[simp] theorem writeByte_pbufSize (sp : Space) (a : Nat) (v : Byte) (s : State) : (writeByte sp a v s).pbufSize = s.pbufSize := by
  cases sp <;> rfl
@[simp] theorem writeByte_input (sp : Space) (a : Nat) (v : Byte) (s : State) : (writeByte sp a v s).input = s.input := by
  cases sp <;> rfl

@[simp] theorem memoryOf_writeByte_self (sp : Space) (a : Nat) (v : Byte) (s : State) :
    memoryOf sp (writeByte sp a v s) = storeCell (memoryOf sp s) a v := by
  cases sp <;> rfl

theorem memoryOf_writeByte_other {sp sp' : Space} (h : sp ≠ sp') (a : Nat) (v : Byte) (s : State) :
    memoryOf sp (writeByte sp' a v s) = memoryOf sp s := by
  cases sp <;> cases sp' <;> first | rfl | exact absurd rfl h

/-! ### The cursor advances (R84): only the five cursor fields can change -/

@[simp] theorem stepCursor_w (s : State) : (stepCursor s).w = s.w := by
  unfold stepCursor; (repeat' split) <;> rfl
@[simp] theorem stepCursor_h (s : State) : (stepCursor s).h = s.h := by
  unfold stepCursor; (repeat' split) <;> rfl
@[simp] theorem stepCursor_c (s : State) : (stepCursor s).c = s.c := by
  unfold stepCursor; (repeat' split) <;> rfl
@[simp] theorem stepCursor_lenlim (s : State) : (stepCursor s).lenlim = s.lenlim := by
  unfold stepCursor; (repeat' split) <;> rfl
@[simp] theorem stepCursor_wlim (s : State) : (stepCursor s).wlim = s.wlim := by
  unfold stepCursor; (repeat' split) <;> rfl
@[simp] theorem stepCursor_cvalid (s : State) : (stepCursor s).cvalid = s.cvalid := by
  unfold stepCursor; (repeat' split) <;> rfl
@[simp] theorem stepCursor_bitq (s : State) : (stepCursor s).bitq = s.bitq := by
  unfold stepCursor; (repeat' split) <;> rfl
@[simp] theorem stepCursor_session (s : State) : (stepCursor s).session = s.session := by
  unfold stepCursor; (repeat' split) <;> rfl
@[simp] theorem stepCursor_status (s : State) : (stepCursor s).status = s.status := by
  unfold stepCursor; (repeat' split) <;> rfl
@[simp] theorem stepCursor_flog (s : State) : (stepCursor s).flog = s.flog := by
  unfold stepCursor; (repeat' split) <;> rfl
@[simp] theorem stepCursor_fld (s : State) : (stepCursor s).fld = s.fld := by
  unfold stepCursor; (repeat' split) <;> rfl
@[simp] theorem stepCursor_len (s : State) : (stepCursor s).len = s.len := by
  unfold stepCursor; (repeat' split) <;> rfl
@[simp] theorem stepCursor_imgw (s : State) : (stepCursor s).imgw = s.imgw := by
  unfold stepCursor; (repeat' split) <;> rfl
@[simp] theorem stepCursor_imgh (s : State) : (stepCursor s).imgh = s.imgh := by
  unfold stepCursor; (repeat' split) <;> rfl
@[simp] theorem stepCursor_raster (s : State) : (stepCursor s).raster = s.raster := by
  unfold stepCursor; (repeat' split) <;> rfl
@[simp] theorem stepCursor_payload (s : State) : (stepCursor s).payload = s.payload := by
  unfold stepCursor; (repeat' split) <;> rfl
@[simp] theorem stepCursor_rasterSize (s : State) : (stepCursor s).rasterSize = s.rasterSize := by
  unfold stepCursor; (repeat' split) <;> rfl
@[simp] theorem stepCursor_pbufSize (s : State) : (stepCursor s).pbufSize = s.pbufSize := by
  unfold stepCursor; (repeat' split) <;> rfl
@[simp] theorem stepCursor_input (s : State) : (stepCursor s).input = s.input := by
  unfold stepCursor; (repeat' split) <;> rfl

end Sys2Proof.Machine
end

