-- ==== Sys2Proof/Laws/Memory.lean ====
section
/-! SUPPORT. The laws of the two memories: read after write, writes elsewhere, and the canonical form. -/

namespace Sys2Proof.Machine

theorem lookupCell_storeCell_self (m : Memory) (a : Nat) (v : Byte) :
    lookupCell (storeCell m a v) a = some v := by
  induction m with
  | nil => simp [storeCell, lookupCell]
  | cons x m ih =>
    obtain ⟨b, y⟩ := x
    simp only [storeCell]
    split
    · simp [lookupCell]
    · split
      · simp [lookupCell]
      · next hne => simp [lookupCell, hne, ih]

theorem lookupCell_storeCell_other {a a' : Nat} (h : a ≠ a') (m : Memory) (v : Byte) :
    lookupCell (storeCell m a' v) a = lookupCell m a := by
  induction m with
  | nil => simp [storeCell, lookupCell, h]
  | cons x m ih =>
    obtain ⟨b, y⟩ := x
    simp only [storeCell]
    split
    · simp [lookupCell, h]
    · split
      · next heq => subst heq; simp [lookupCell, h]
      · simp [lookupCell, ih]

theorem mem_storeCell {m : Memory} {a : Nat} {v : Byte} {x : Host.Cell} (h : x ∈ storeCell m a v) :
    x = (a, v) ∨ x ∈ m := by
  induction m with
  | nil => simpa [storeCell] using h
  | cons y m ih =>
    simp only [storeCell] at h
    split at h
    · simpa using h
    · split at h
      · rcases List.mem_cons.mp h with h | h
        · exact .inl h
        · exact .inr (List.mem_cons_of_mem _ h)
      · rcases List.mem_cons.mp h with h | h
        · exact .inr (h ▸ List.mem_cons_self)
        · exact (ih h).imp id (List.mem_cons_of_mem _)

/-- A write keeps the canonical form. -/
theorem storeCell_wf {m : Memory} (h : m.wf) (a : Nat) (v : Byte) : Memory.wf (storeCell m a v) := by
  induction m with
  | nil => simp [Memory.wf, storeCell]
  | cons y m ih =>
    have hm := List.pairwise_cons.mp h
    simp only [storeCell]
    split
    · next hlt =>
      refine List.pairwise_cons.mpr ⟨fun z hz => ?_, h⟩
      rcases List.mem_cons.mp hz with rfl | hz
      · exact hlt
      · exact Nat.lt_trans hlt (hm.1 z hz)
    · split
      · next _ heq => exact List.pairwise_cons.mpr ⟨fun z hz => heq ▸ hm.1 z hz, hm.2⟩
      · next hlt hne =>
        refine List.pairwise_cons.mpr ⟨fun z hz => ?_, ih hm.2⟩
        rcases mem_storeCell hz with rfl | hz
        · exact Nat.lt_of_le_of_ne (Nat.le_of_not_lt hlt) (Ne.symm hne)
        · exact hm.1 z hz

/-- A write within the space keeps the canonical form and the bounds. -/
theorem MemoryOk.storeCell {size : Option Nat} {m : Memory} (h : MemoryOk size m) {a : Nat}
    (ha : inSpace size a = true) (v : Byte) : MemoryOk size (storeCell m a v) :=
  ⟨storeCell_wf h.1 a v, fun _ hx => (mem_storeCell hx).elim (fun e => e ▸ ha) (h.2 _)⟩

theorem readByte_writeByte_self (sp : Space) (a : Nat) (v : Byte) (s : State) :
    readByte sp a (writeByte sp a v s) = v := by
  simp [readByte, lookupCell_storeCell_self]

theorem readByte_writeByte_other {sp sp' : Space} {a a' : Nat} (h : sp ≠ sp' ∨ a ≠ a') (v : Byte)
    (s : State) : readByte sp a (writeByte sp' a' v s) = readByte sp a s := by
  by_cases hsp : sp = sp'
  · subst hsp
    simp [readByte, lookupCell_storeCell_other (h.resolve_left fun hne => hne rfl)]
  · simp [readByte, memoryOf_writeByte_other hsp]

/-- The value of a byte after a write. -/
theorem readByte_writeByte (sp sp' : Space) (a a' : Nat) (v : Byte) (s : State) :
    readByte sp a (writeByte sp' a' v s) = if sp = sp' ∧ a = a' then v else readByte sp a s := by
  split
  · next h => rw [h.1, h.2, readByte_writeByte_self]
  · next h => exact readByte_writeByte_other (by by_cases h1 : sp = sp' <;> simp_all) v s

/-- `readByte` sees only the memories. -/
theorem readByte_congr {s t : State} (sp : Space) (h : memoryOf sp t = memoryOf sp s) (a : Nat) :
    readByte sp a t = readByte sp a s := by
  simp [readByte, h]

theorem inSpace_of_lt {size : Option Nat} {n a : Nat} (hn : exceeds size n = false) (h : a < n) :
    inSpace size a = true := by
  cases size with
  | none => rfl
  | some m => simp [exceeds, inSpace] at *; omega

theorem memRead_ok {sp : Space} {a : Nat} {s : State} (h : inSpace (sizeOfSpace sp s) a = true) :
    memRead sp a s = .ok (readByte sp a s) s := by
  simp [memRead, h]

theorem memWrite_ok {sp : Space} {a : Nat} {s : State} (h : inSpace (sizeOfSpace sp s) a = true)
    (v : Byte) : memWrite sp a v s = .ok () (writeByte sp a v s) := by
  simp [memWrite, h]

end Sys2Proof.Machine
end

