-- ==== Sys2Proof/Laws/Cursor.lean ====
section
/-! SUPPORT. The cursor: `Advance()` moves the position by one (R84, R89), and what one `WriteBit` and one
`ReadBit` do (R82, R83). -/

namespace Sys2Proof.Machine

/-! ### Frames compose -/

theorem OnlyCursor.refl (s : State) : OnlyCursor s s := rfl

theorem OnlyCursor.trans {s t u : State} (h : OnlyCursor s t) (h' : OnlyCursor t u) : OnlyCursor s u := by
  unfold OnlyCursor at *; rw [h', h]

theorem OnlyBits.refl (s : State) : OnlyBits s s := rfl

theorem OnlyBits.trans {s t u : State} (h : OnlyBits s t) (h' : OnlyBits t u) : OnlyBits s u := by
  unfold OnlyBits at *; rw [h', h]

theorem OnlyPayload.refl (s : State) : OnlyPayload s s := rfl

theorem OnlyPayload.trans {s t u : State} (h : OnlyPayload s t) (h' : OnlyPayload t u) :
    OnlyPayload s u := by
  unfold OnlyPayload at *; rw [h', h]

theorem OnlyCursor.onlyBits {s t : State} (h : OnlyCursor s t) : OnlyBits s t := by
  unfold OnlyBits OnlyCursor at *; rw [h]

theorem OnlyCursor.onlyPayload {s t : State} (h : OnlyCursor s t) : OnlyPayload s t := by
  unfold OnlyPayload OnlyCursor at *; rw [h]

theorem OnlyCursor.stepCursor (s : State) : OnlyCursor s (stepCursor s) := by
  unfold OnlyCursor Sys2Proof.Machine.stepCursor; (repeat' split) <;> rfl

theorem OnlyBits.writeByte (a : Nat) (v : Byte) (s : State) : OnlyBits s (writeByte .raster a v s) := rfl

theorem OnlyPayload.writeByte (a : Nat) (v : Byte) (s : State) :
    OnlyPayload s (writeByte .payload a v s) := rfl

/-! ### What the position depends on -/

theorem cells_congr {s t : State} (hw : t.w = s.w) (hh : t.h = s.h) (hc : t.c = s.c) :
    cells t = cells s := by
  simp [cells, hw, hh, hc]

theorem OnlyBits.cells {s t : State} (h : OnlyBits s t) : cells t = cells s := by
  unfold OnlyBits at h; rw [h]; rfl

theorem OnlyPayload.cells {s t : State} (h : OnlyPayload s t) : cells t = cells s := by
  unfold OnlyPayload at h; rw [h]; rfl

theorem OnlyCursor.cells {s t : State} (h : OnlyCursor s t) : cells t = cells s := h.onlyBits.cells

theorem OnlyCursor.raster {s t : State} (h : OnlyCursor s t) : t.raster = s.raster := by
  unfold OnlyCursor at h; rw [h]

theorem OnlyPayload.raster {s t : State} (h : OnlyPayload s t) : t.raster = s.raster := by
  unfold OnlyPayload at h; rw [h]

theorem OnlyBits.payload {s t : State} (h : OnlyBits s t) : t.payload = s.payload := by
  unfold OnlyBits at h; rw [h]

theorem rasterBit_congr {s t : State} (h : t.raster = s.raster) (a i : Nat) :
    rasterBit t a i = rasterBit s a i := by
  simp [rasterBit, readByte, memoryOf, h]

/-- The stream depends on the bytes of the raster and on `N`, on nothing else. -/
theorem streamBit_of_bytes {s t : State} (h : ∀ a, readByte .raster a t = readByte .raster a s)
    (hn : cells t = cells s) (p : Nat) : streamBit t p = streamBit s p := by
  simp [streamBit, rasterBit, h, hn]

theorem streamField_of_bytes {s t : State} (h : ∀ a, readByte .raster a t = readByte .raster a s)
    (hn : cells t = cells s) (p n : Nat) : streamField t p n = streamField s p n := by
  induction n with
  | zero => rfl
  | succ m ih => simp [streamField, ih, streamBit_of_bytes h hn]

theorem streamField_congr {s t : State} (h : t.raster = s.raster) (hn : cells t = cells s) (p n : Nat) :
    streamField t p n = streamField s p n :=
  streamField_of_bytes (fun a => readByte_congr .raster h a) hn p n

/-- A frame on an exhausted cursor, with the coordinates it then holds. -/
theorem OnlyCursor.eqAtEnd {s t : State} (h : OnlyCursor s t) (he : t.exh = true) (ha : AtEnd t) :
    t = { s with row := 0#16, col := 0#16, chan := 0#8, plane := 7#3, exh := true } := by
  obtain ⟨hr, hc, hch, hp⟩ := ha
  unfold OnlyCursor at h
  rwa [hr, hc, hch, hp, he] at h

theorem OnlyBits.eqAtEnd {s t : State} (h : OnlyBits s t) (he : t.exh = true) (ha : AtEnd t) :
    t = { s with row := 0#16, col := 0#16, chan := 0#8, plane := 7#3, exh := true, raster := t.raster } := by
  obtain ⟨hr, hc, hch, hp⟩ := ha
  unfold OnlyBits at h
  rwa [hr, hc, hch, hp, he] at h

theorem OnlyPayload.eqAtEnd {s t : State} (h : OnlyPayload s t) (he : t.exh = true) (ha : AtEnd t) :
    t = { s with row := 0#16, col := 0#16, chan := 0#8, plane := 7#3, exh := true, payload := t.payload } := by
  obtain ⟨hr, hc, hch, hp⟩ := ha
  unfold OnlyPayload at h
  rwa [hr, hc, hch, hp, he] at h

/-! ### The address and the position -/

/-- R41: the cell under a cursor within its bounds is a cell of the carrier. -/
theorem raddr_lt {s : State} (h : CursorOk s) : raddr s < cells s := by
  obtain ⟨hr, hc, hk, -⟩ := h
  unfold raddr cells
  have h1 : s.row.toNat * s.w.toNat + s.col.toNat + 1 ≤ s.w.toNat * s.h.toNat := by
    calc s.row.toNat * s.w.toNat + s.col.toNat + 1
        ≤ s.row.toNat * s.w.toNat + s.w.toNat := by omega
      _ = (s.row.toNat + 1) * s.w.toNat := by ring
      _ ≤ s.h.toNat * s.w.toNat := Nat.mul_le_mul_right _ hr
      _ = s.w.toNat * s.h.toNat := Nat.mul_comm _ _
  calc (s.row.toNat * s.w.toNat + s.col.toNat) * s.c.toNat + s.chan.toNat
      < (s.row.toNat * s.w.toNat + s.col.toNat) * s.c.toNat + s.c.toNat := by omega
    _ = (s.row.toNat * s.w.toNat + s.col.toNat + 1) * s.c.toNat := by ring
    _ ≤ s.w.toNat * s.h.toNat * s.c.toNat := Nat.mul_le_mul_right _ h1

theorem cells_pos {s : State} (h : CursorOk s) : 0 < cells s := Nat.lt_of_le_of_lt (Nat.zero_le _) (raddr_lt h)

theorem pos_of_live {s : State} (he : s.exh = false) : pos s = s.plane.toNat * cells s + raddr s := by
  simp [pos, he]

theorem pos_of_exhausted {s : State} (he : s.exh = true) : pos s = 8 * cells s := by
  simp [pos, he]

theorem capacity_eq (s : State) : capacity s = 8 * cells s := by
  unfold capacity cells; ring

/-- R15: while the cursor is not exhausted, `POS < 8 * N`. -/
theorem pos_lt {s : State} (h : CursorOk s) (he : s.exh = false) : pos s < 8 * cells s := by
  have hp : s.plane.toNat < 8 := s.plane.isLt
  have hr := raddr_lt h
  rw [pos_of_live he]
  calc s.plane.toNat * cells s + raddr s < s.plane.toNat * cells s + cells s := by omega
    _ = (s.plane.toNat + 1) * cells s := by ring
    _ ≤ 8 * cells s := Nat.mul_le_mul_right _ hp

theorem pos_le {s : State} (h : CursorOk s) : pos s ≤ 8 * cells s := by
  cases he : s.exh with
  | false => exact Nat.le_of_lt (pos_lt h he)
  | true => exact Nat.le_of_eq (pos_of_exhausted he)

/-- R15: a bit operation has a position left exactly when the cursor is not exhausted. -/
theorem exh_eq_false_of_pos_lt {s : State} (h : pos s < 8 * cells s) : s.exh = false := by
  cases he : s.exh with
  | false => rfl
  | true => rw [pos_of_exhausted he] at h; omega

theorem exh_eq_true_of_pos_eq {s : State} (hc : CursorOk s) (h : pos s = 8 * cells s) : s.exh = true := by
  cases he : s.exh with
  | true => rfl
  | false => have := pos_lt hc he; omega

/-- R84: `EXH` is 1 exactly when every position has been consumed. -/
theorem exh_iff_pos {s : State} (hc : CursorOk s) : s.exh = true ↔ pos s = 8 * cells s :=
  ⟨pos_of_exhausted, exh_eq_true_of_pos_eq hc⟩

/-- R15: the address under the cursor is `POS mod N`. -/
theorem pos_mod {s : State} (h : CursorOk s) (he : s.exh = false) : pos s % cells s = raddr s := by
  rw [pos_of_live he, Nat.mul_comm, Nat.mul_add_mod, Nat.mod_eq_of_lt (raddr_lt h)]

/-- R15: the plane is `POS div N`. -/
theorem pos_div {s : State} (h : CursorOk s) (he : s.exh = false) : pos s / cells s = s.plane.toNat := by
  rw [pos_of_live he, Nat.mul_comm, Nat.mul_add_div (cells_pos h), Nat.div_eq_of_lt (raddr_lt h),
    Nat.add_zero]

/-- A fresh session's cursor stands at position 0 (R80, R15). -/
theorem pos_openSession (s : State) : pos (openSession s) = 0 := by
  simp [pos, raddr]

@[simp] theorem cells_openSession (s : State) : cells (openSession s) = cells s := rfl

@[simp] theorem cells_setSession (v : Session) (s : State) : cells (setSession v s) = cells s := rfl

@[simp] theorem pos_setSession (v : Session) (s : State) : pos (setSession v s) = pos s := rfl

@[simp] theorem readByte_openSession (sp : Space) (a : Nat) (s : State) :
    readByte sp a (openSession s) = readByte sp a s := by cases sp <;> rfl

@[simp] theorem readByte_setSession (sp : Space) (a : Nat) (v : Session) (s : State) :
    readByte sp a (setSession v s) = readByte sp a s := by cases sp <;> rfl

/-- R81, R80: after `ConfigCheck()` the fresh cursor is within its bounds. -/
theorem CursorOk.openSession {s : State} (h : badConfig s = false) : CursorOk (openSession s) := by
  simp only [badConfig, Bool.or_eq_false_iff, decide_eq_false_iff_not, not_or] at h
  obtain ⟨⟨hw, hh, hc⟩, hf⟩ := h
  refine ⟨?_, ?_, ?_, hf⟩
  · exact Nat.pos_of_ne_zero fun e => hh (BitVec.eq_of_toNat_eq e)
  · exact Nat.pos_of_ne_zero fun e => hw (BitVec.eq_of_toNat_eq e)
  · exact Nat.pos_of_ne_zero fun e => hc (BitVec.eq_of_toNat_eq e)

/-! ### `Advance()` -/

theorem toNat_succ {n : Nat} {x : BitVec n} {m : Nat} (hx : x.toNat < m) (hm : m < 2 ^ n) :
    (x + BitVec.ofNat n 1).toNat = x.toNat + 1 := by
  have h1 : 1 < 2 ^ n := by omega
  rw [BitVec.toNat_add, BitVec.toNat_ofNat, Nat.mod_eq_of_lt h1, Nat.mod_eq_of_lt (by omega)]

/-- R84, R89: one step of the cursor moves the position by one and keeps it within its bounds. -/
theorem stepCursor_pos {s : State} (h : CursorOk s) (he : s.exh = false) :
    CursorOk (stepCursor s) ∧ pos (stepCursor s) = pos s + 1 ∧
      ((stepCursor s).exh = true → AtEnd (stepCursor s)) := by
  obtain ⟨hr, hc, hk, hf⟩ := h
  have hk2 := s.c.isLt
  have hw2 := s.w.isLt
  have hh2 := s.h.isLt
  unfold stepCursor
  split
  · next h1 =>
    have hs := toNat_succ (x := s.chan) (m := s.c.toNat - 1) h1 (by omega)
    refine ⟨⟨hr, hc, by show (s.chan + 1#8).toNat < s.c.toNat; omega, hf⟩, ?_, fun hx => absurd hx (by simp [he])⟩
    simp only [pos, he, raddr, cells, hs, Bool.false_eq_true, if_false]
    omega
  · next h1 =>
    have hk' : s.c.toNat = s.chan.toNat + 1 := by omega
    split
    · next h2 =>
      have hs := toNat_succ (x := s.col) (m := s.w.toNat - 1) h2 (by omega)
      refine ⟨⟨hr, by show (s.col + 1#16).toNat < s.w.toNat; omega, by show (0#8).toNat < _; simp; omega, hf⟩, ?_,
        fun hx => absurd hx (by simp [he])⟩
      simp only [pos, he, raddr, cells, hs, Bool.false_eq_true, if_false, hk']
      simp
      ring
    · next h2 =>
      have hc' : s.w.toNat = s.col.toNat + 1 := by omega
      split
      · next h3 =>
        have hs := toNat_succ (x := s.row) (m := s.h.toNat - 1) h3 (by omega)
        refine ⟨⟨by show (s.row + 1#16).toNat < s.h.toNat; omega, by show (0#16).toNat < _; simp; omega,
          by show (0#8).toNat < _; simp; omega, hf⟩, ?_, fun hx => absurd hx (by simp [he])⟩
        simp only [pos, he, raddr, cells, hs, Bool.false_eq_true, if_false, hk', hc']
        simp
        ring
      · next h3 =>
        have hr' : s.h.toNat = s.row.toNat + 1 := by omega
        split
        · next h4 =>
          have hs := toNat_succ (x := s.plane) (m := 7) h4 (by omega)
          refine ⟨⟨by show (0#16).toNat < _; simp; omega, by show (0#16).toNat < _; simp; omega,
            by show (0#8).toNat < _; simp; omega, hf⟩, ?_, fun hx => absurd hx (by simp [he])⟩
          simp only [pos, he, raddr, cells, hs, Bool.false_eq_true, if_false, hk', hc', hr']
          simp
          ring
        · next h4 =>
          have hp : s.plane.toNat = 7 := by have := s.plane.isLt; omega
          refine ⟨⟨by show (0#16).toNat < _; simp; omega, by show (0#16).toNat < _; simp; omega,
            by show (0#8).toNat < _; simp; omega, hf⟩, ?_,
            fun _ => ⟨rfl, rfl, rfl, BitVec.eq_of_toNat_eq hp⟩⟩
          simp only [pos, he, raddr, cells, Bool.false_eq_true, if_false, if_true, hk', hc', hr', hp]
          ring

/-! ### One bit of one byte -/

theorem maskOf_getLsbD (p : BitVec 3) (i : Nat) (hi : i < 8) :
    (maskOf p).getLsbD i = decide (i = p.toNat) := by
  have hp : p.toNat < 8 := p.isLt
  rw [maskOf, BitVec.getLsbD_shiftLeft]
  by_cases h : i = p.toNat
  · simp [h, hp]
  · by_cases h2 : i < p.toNat
    · simp [h, h2]
    · have : i - p.toNat ≠ 0 := by omega
      simp [h, h2, hi, BitVec.getLsbD_one, this]

/-- R82, R43: the bit the mask selects takes the value, the other seven keep theirs. -/
theorem setMasked_getLsbD (v : Bool) (p : BitVec 3) (b : Byte) (i : Nat) (hi : i < 8) :
    (setMasked v (maskOf p) b).getLsbD i = if i = p.toNat then v else b.getLsbD i := by
  have hm := maskOf_getLsbD p i hi
  cases v <;> simp only [setMasked, Bool.false_eq_true, if_false, if_true, BitVec.getLsbD_and,
    BitVec.getLsbD_or, BitVec.getLsbD_not, hm, hi] <;> by_cases h : i = p.toNat <;> simp [h]

/-- R83: the bit read is bit `PLANE` of the byte. -/
theorem masked_ne_zero (p : BitVec 3) (b : Byte) :
    decide (b &&& maskOf p ≠ 0#8) = b.getLsbD p.toNat := by
  have hp : p.toNat < 8 := p.isLt
  cases hb : b.getLsbD p.toNat with
  | true =>
    refine decide_eq_true fun e => ?_
    have := congrArg (fun x : BitVec 8 => x.getLsbD p.toNat) e
    simp [hb, maskOf_getLsbD p _ hp] at this
  | false =>
    refine decide_eq_false (not_not_intro (BitVec.eq_of_getLsbD_eq fun i hi => ?_))
    by_cases h : i = p.toNat <;> simp [maskOf_getLsbD p i hi, h, hb]

/-- `N` positions a plane: a cell and a plane name one position. -/
theorem cell_position {n a i p : Nat} (ha : a < n) : i * n + a = p ↔ a = p % n ∧ i = p / n := by
  have hn : 0 < n := by omega
  constructor
  · rintro rfl
    rw [Nat.mul_comm, Nat.mul_add_mod, Nat.mod_eq_of_lt ha, Nat.mul_add_div hn, Nat.div_eq_of_lt ha]
    simp
  · rintro ⟨h1, h2⟩
    rw [h1, h2, Nat.mul_comm]
    exact Nat.div_add_mod p n

/-! ### Embedding a stretch of the stream -/

theorem Embedded.congr {s t : State} {p n : Nat} {f g : Nat → Bool} (h : Embedded s t p n f)
    (hfg : ∀ j, j < n → f j = g j) : Embedded s t p n g := by
  intro a i hi
  rw [h a i hi]
  split
  · next hc => exact hfg _ (by omega)
  · rfl

theorem Embedded.zero (s : State) (p : Nat) (f : Nat → Bool) : Embedded s s p 0 f := by
  intro a i _
  rw [if_neg (by omega)]

/-- Two stretches one after the other are one stretch. -/
theorem Embedded.append {s t u : State} {p n m : Nat} {f g : Nat → Bool} (hn : cells t = cells s)
    (h : Embedded s t p n f) (h' : Embedded t u (p + n) m g) :
    Embedded s u p (n + m) fun j => if j < n then f j else g (j - n) := by
  intro a i hi
  rw [h' a i hi, h a i hi, hn]
  by_cases ha : a < cells s
  · by_cases h1 : p ≤ i * cells s + a
    · by_cases h2 : i * cells s + a < p + n
      · rw [if_neg (by omega), if_pos (by omega), if_pos (by omega)]
        exact (if_pos (by omega)).symm
      · by_cases h3 : i * cells s + a < p + n + m
        · rw [if_pos (by omega), if_pos (by omega)]
          refine Eq.trans ?_ (if_neg (by omega)).symm
          congr 1
          omega
        · rw [if_neg (by omega), if_neg (by omega), if_neg (by omega)]
    · rw [if_neg (by omega), if_neg (by omega), if_neg (by omega)]
  · rw [if_neg (by omega), if_neg (by omega), if_neg (by omega)]

/-- A byte no position of the stretch lies in keeps its value (R43). -/
theorem Embedded.byte_frame {s t : State} {p n : Nat} {f : Nat → Bool} (h : Embedded s t p n f) {a : Nat}
    (ha : ∀ j, j < n → a ≠ (p + j) % cells s) : readByte .raster a t = readByte .raster a s := by
  refine BitVec.eq_of_getLsbD_eq fun i hi => ?_
  have := h a i hi
  rw [if_neg] at this
  · exact this
  · rintro ⟨h1, h2, h3⟩
    refine ha (i * cells s + a - p) (by omega) ?_
    rw [Nat.add_sub_cancel' h2]
    exact ((cell_position h1).mp rfl).1

/-- Inside the stretch the stream is what was embedded (R15). -/
theorem Embedded.streamBit {s t : State} {p n : Nat} {f : Nat → Bool} (h : Embedded s t p n f)
    (hn : cells t = cells s) (hfit : p + n ≤ 8 * cells s) {j : Nat} (hj : j < n) :
    streamBit t (p + j) = f j := by
  have hpos : 0 < cells s := by omega
  have ha : (p + j) % cells s < cells s := Nat.mod_lt _ hpos
  have hi : (p + j) / cells s < 8 := (Nat.div_lt_iff_lt_mul hpos).mpr (by omega)
  have e := (cell_position ha).mpr ⟨rfl, rfl⟩
  rw [Sys2Proof.Machine.streamBit, hn, h _ _ hi, if_pos ⟨ha, by omega, by omega⟩]
  congr 1
  omega

/-! ### One bit operation -/

/-- What a run of `n` successful `WriteBit`s from `s` leaves. -/
structure Wrote (s t : State) (n : Nat) (f : Nat → Bool) : Prop where
  ok : CursorOk t
  pos : pos t = pos s + n
  atEnd : (s.exh = true → AtEnd s) → t.exh = true → AtEnd t
  only : OnlyBits s t
  bits : Embedded s t (Sys2Proof.Machine.pos s) n f

/-- What a run of `n` successful `ReadBit`s from `s` leaves. -/
structure Moved (s t : State) (n : Nat) : Prop where
  ok : CursorOk t
  pos : pos t = pos s + n
  atEnd : (s.exh = true → AtEnd s) → t.exh = true → AtEnd t
  only : OnlyCursor s t

theorem Wrote.refl {s : State} (h : CursorOk s) (f : Nat → Bool) : Wrote s s 0 f :=
  ⟨h, rfl, id, OnlyBits.refl s, Embedded.zero s _ f⟩

theorem Wrote.congr {s t : State} {n : Nat} {f g : Nat → Bool} (h : Wrote s t n f)
    (hfg : ∀ j, j < n → f j = g j) : Wrote s t n g :=
  ⟨h.ok, h.pos, h.atEnd, h.only, h.bits.congr hfg⟩

theorem Wrote.trans {s t u : State} {n m : Nat} {f g : Nat → Bool} (h : Wrote s t n f)
    (h' : Wrote t u m g) : Wrote s u (n + m) fun j => if j < n then f j else g (j - n) :=
  ⟨h'.ok, by rw [h'.pos, h.pos, Nat.add_assoc], fun e => h'.atEnd (h.atEnd e), h.only.trans h'.only,
    h.bits.append h.only.cells (h.pos ▸ h'.bits)⟩

theorem Moved.refl {s : State} (h : CursorOk s) : Moved s s 0 := ⟨h, rfl, id, OnlyCursor.refl s⟩

theorem Moved.trans {s t u : State} {n m : Nat} (h : Moved s t n) (h' : Moved t u m) :
    Moved s u (n + m) :=
  ⟨h'.ok, by rw [h'.pos, h.pos, Nat.add_assoc], fun e => h'.atEnd (h.atEnd e), h.only.trans h'.only⟩

theorem CursorOk.inSpace {s : State} (h : CursorOk s) {a : Nat} (ha : a < cells s) :
    inSpace (sizeOfSpace .raster s) a = true := inSpace_of_lt h.fits ha

theorem CursorOk.writeByte {s : State} (h : CursorOk s) (a : Nat) (v : Byte) :
    CursorOk (writeByte .raster a v s) := ⟨h.row_lt, h.col_lt, h.chan_lt, h.fits⟩

/-- R82: what one `WriteBit` does on a cursor that is not exhausted. -/
theorem writeBit_ok {s : State} (h : CursorOk s) (he : s.exh = false) (v : Bool) :
    ∃ t, writeBit v s = .ok () t ∧ Wrote s t 1 fun _ => v := by
  have hin := h.inSpace (raddr_lt h)
  let b := setMasked v (maskOf s.plane) (readByte .raster (raddr s) s)
  let u := Sys2Proof.Machine.writeByte .raster (raddr s) b s
  have hu : CursorOk u := h.writeByte _ _
  obtain ⟨h1, h2, h3⟩ := stepCursor_pos hu he
  refine ⟨stepCursor u, ?_, h1, h2, fun _ => h3, (OnlyBits.writeByte _ _ s).trans
    (OnlyCursor.stepCursor u).onlyBits, ?_⟩
  · simp only [writeBit, he, memRead_ok hin, memWrite_ok hin, Flow.bind, advance,
      Bool.false_eq_true, if_false]
    rw [if_neg (by simp [he])]
  · intro a i hi
    rw [rasterBit_congr (stepCursor_raster u) a i]
    unfold rasterBit
    rw [readByte_writeByte]
    by_cases ha : a < cells s
    · have hp := cell_position (i := i) (p := pos s) ha
      rw [pos_mod h he, pos_div h he] at hp
      by_cases ha' : a = raddr s
      · rw [if_pos ⟨rfl, ha'⟩, setMasked_getLsbD v s.plane _ i hi]
        by_cases hi' : i = s.plane.toNat
        · have := hp.mpr ⟨ha', hi'⟩
          rw [if_pos hi', if_pos (by omega)]
        · have : i * cells s + a ≠ pos s := fun e => hi' (hp.mp e).2
          rw [if_neg hi', if_neg (by omega), ha']
      · have : i * cells s + a ≠ pos s := fun e => ha' (hp.mp e).1
        rw [if_neg (fun e => ha' e.2), if_neg (by omega)]
    · have := raddr_lt h
      rw [if_neg (by omega), if_neg (by omega)]

/-- R83: what one `ReadBit` does on a cursor that is not exhausted. -/
theorem readBit_ok {s : State} (h : CursorOk s) (he : s.exh = false) :
    ∃ t, readBit s = .ok (streamBit s (pos s)) t ∧ Moved s t 1 := by
  have hin := h.inSpace (raddr_lt h)
  obtain ⟨h1, h2, h3⟩ := stepCursor_pos h he
  refine ⟨stepCursor s, ?_, h1, h2, fun _ => h3, OnlyCursor.stepCursor s⟩
  simp only [readBit, he, memRead_ok hin, Flow.bind, advance, Bool.false_eq_true, if_false,
    masked_ne_zero, streamBit, rasterBit, pos_mod h he, pos_div h he]

/-- C4: a bit operation on an exhausted cursor raises before any memory access. -/
theorem writeBit_exhausted {s : State} (he : s.exh = true) (v : Bool) :
    writeBit v s = .raised .capacityExhausted s := by
  simp [writeBit, he]

theorem readBit_exhausted {s : State} (he : s.exh = true) :
    readBit s = .raised .capacityExhausted s := by
  simp [readBit, he]

end Sys2Proof.Machine
end

