-- ==== Sys2Proof/Laws/Field.lean ====
section
/-! SUPPORT. The field datapath: what `PutField` and `GetField` do when the positions suffice and when they
run out (R100, R101). -/

namespace Sys2Proof.Machine

/-! ### Fields of the stream -/

theorem streamField_lt (s : State) (p n : Nat) : streamField s p n < 2 ^ n := by
  induction n with
  | zero => simp [streamField]
  | succ m ih =>
    have := (streamBit s (p + m)).toNat_le
    rw [streamField, Nat.pow_succ]
    omega

/-- The first bit of a field is its most significant (R101). -/
theorem streamField_succ (s : State) (p n : Nat) :
    streamField s p (n + 1) = (streamBit s p).toNat * 2 ^ n + streamField s (p + 1) n := by
  induction n with
  | zero => simp [streamField]
  | succ m ih =>
    rw [streamField, ih, streamField, Nat.pow_succ, show p + 1 + m = p + (m + 1) by omega]
    ring

/-- R47: stream bit `p + j` is bit `n - 1 - j` of the field at `p`. -/
theorem streamField_testBit (s : State) (p n j : Nat) (hj : j < n) :
    (streamField s p n).testBit (n - 1 - j) = streamBit s (p + j) := by
  induction n with
  | zero => omega
  | succ m ih =>
    rw [streamField]
    have hb := (streamBit s (p + m)).toNat_le
    by_cases h : j = m
    · subst h
      rw [show j + 1 - 1 - j = 0 by omega, Nat.testBit_zero]
      cases streamBit s (p + j) <;> simp
    · rw [show m + 1 - 1 - j = (m - 1 - j) + 1 by omega, Nat.testBit_succ,
        show (2 * streamField s p m + (streamBit s (p + m)).toNat) / 2 = streamField s p m by omega]
      exact ih (by omega)

/-- A field is the number whose bits the stream holds. -/
theorem streamField_eq {s : State} {p n v : Nat} (hv : v < 2 ^ n)
    (h : ∀ j, j < n → streamBit s (p + j) = fieldBit n v j) : streamField s p n = v := by
  refine Nat.eq_of_testBit_eq fun i => ?_
  by_cases hi : i < n
  · have := streamField_testBit s p n (n - 1 - i) (by omega)
    rw [show n - 1 - (n - 1 - i) = i by omega] at this
    rw [this, h _ (by omega), fieldBit, show n - 1 - (n - 1 - i) = i by omega]
  · have hp : 2 ^ n ≤ 2 ^ i := Nat.pow_le_pow_right (by omega) (by omega)
    rw [Nat.testBit_lt_two_pow (Nat.lt_of_lt_of_le (streamField_lt s p n) hp),
      Nat.testBit_lt_two_pow (Nat.lt_of_lt_of_le hv hp)]

theorem fieldBit_succ (n v j : Nat) : fieldBit (n + 1) v (j + 1) = fieldBit n v j := by
  unfold fieldBit
  congr 1
  omega

/-- R102: bit `j` of the field `FLD[n-1:0]`. -/
theorem fieldBit_fld {n j : Nat} (s : State) (hj : j < n) :
    fieldBit n (s.fld.toNat % 2 ^ n) j = s.fld.getLsbD (n - 1 - j) := by
  unfold fieldBit
  rw [Nat.testBit_mod_two_pow]
  simp [BitVec.getLsbD]
  omega

theorem fieldBit_zero (n v : Nat) : fieldBit (n + 1) v 0 = v.testBit n := rfl

/-! ### `PutField` -/

/-- R100: `n` positions left, so the whole field is written, most significant bit first. -/
theorem putField_ok {n : Nat} {s : State} (h : CursorOk s) (hfit : pos s + n ≤ 8 * cells s) (v : Nat) :
    ∃ t, putField n v s = .ok () t ∧ Wrote s t n (fieldBit n v) := by
  induction n generalizing s with
  | zero => exact ⟨s, rfl, Wrote.refl h _⟩
  | succ m ih =>
    obtain ⟨u, hu, wu⟩ := writeBit_ok h (exh_eq_false_of_pos_lt (by omega)) (v.testBit m)
    obtain ⟨t, ht, wt⟩ := ih wu.ok (by rw [wu.pos, wu.only.cells]; omega)
    refine ⟨t, by simp only [putField, hu, Flow.bind, ht], ?_⟩
    rw [Nat.add_comm m 1]
    refine (wu.trans wt).congr fun j _ => ?_
    split
    · next hj => rw [show j = 0 by omega, Nat.add_comm 1 m, fieldBit_zero]
    · next hj =>
      obtain ⟨k, rfl⟩ : ∃ k, j = k + 1 := ⟨j - 1, by omega⟩
      rw [Nat.add_comm 1 m, fieldBit_succ, Nat.add_sub_cancel]

/-- R100, R102: with `r < n` positions left the top `r` bits are written, then `CapacityExhausted` is
raised on an exhausted cursor. -/
theorem putField_exhausted {n : Nat} {s : State} (h : CursorOk s) (hfit : 8 * cells s < pos s + n)
    (v : Nat) :
    ∃ t, putField n v s = .raised .capacityExhausted t ∧ t.exh = true ∧
      Wrote s t (8 * cells s - pos s) (fieldBit n v) := by
  induction n generalizing s with
  | zero => have := pos_le h; omega
  | succ m ih =>
    by_cases hr : pos s = 8 * cells s
    · have he := exh_eq_true_of_pos_eq h hr
      refine ⟨s, by simp only [putField, writeBit_exhausted he, Flow.bind], he, ?_⟩
      rw [hr, Nat.sub_self]
      exact Wrote.refl h _
    · have hlt : pos s < 8 * cells s := by have := pos_le h; omega
      obtain ⟨u, hu, wu⟩ := writeBit_ok h (exh_eq_false_of_pos_lt hlt) (v.testBit m)
      obtain ⟨t, ht, he, wt⟩ := ih wu.ok (by rw [wu.pos, wu.only.cells]; omega)
      refine ⟨t, by simp only [putField, hu, Flow.bind, ht], he, ?_⟩
      rw [wu.only.cells, wu.pos] at wt
      have e : 8 * cells s - pos s = 1 + (8 * cells s - (pos s + 1)) := by omega
      rw [e]
      refine (wu.trans wt).congr fun j _ => ?_
      split
      · next hj => rw [show j = 0 by omega, fieldBit_zero]
      · next hj =>
        obtain ⟨k, rfl⟩ : ∃ k, j = k + 1 := ⟨j - 1, by omega⟩
        rw [fieldBit_succ, Nat.add_sub_cancel]

/-! ### `GetField` -/

theorem getBits_ok {n : Nat} {s : State} (h : CursorOk s) (hfit : pos s + n ≤ 8 * cells s) (acc : Nat) :
    ∃ t, getBits n acc s = .ok (acc * 2 ^ n + streamField s (pos s) n) t ∧ Moved s t n := by
  induction n generalizing s acc with
  | zero => exact ⟨s, by simp [getBits, streamField], Moved.refl h⟩
  | succ m ih =>
    obtain ⟨u, hu, mu⟩ := readBit_ok h (exh_eq_false_of_pos_lt (by omega))
    have hf : pos u + m ≤ 8 * cells u := by rw [mu.pos, mu.only.cells]; omega
    obtain ⟨t, ht, mt⟩ := ih mu.ok hf (acc * 2 + (streamBit s (pos s)).toNat)
    refine ⟨t, ?_, Nat.add_comm m 1 ▸ mu.trans mt⟩
    simp only [getBits, hu, Flow.bind, ht]
    congr 1
    rw [streamField_congr mu.only.raster mu.only.cells, mu.pos, streamField_succ, Nat.pow_succ]
    ring

/-- R101: `n` positions left, so the whole field is read. -/
theorem getField_ok {n : Nat} {s : State} (h : CursorOk s) (hfit : pos s + n ≤ 8 * cells s) :
    ∃ t, getField n s = .ok (streamField s (pos s) n) t ∧ Moved s t n := by
  obtain ⟨t, ht, mt⟩ := getBits_ok h hfit 0
  exact ⟨t, by simpa [getField] using ht, mt⟩

/-- R101, R103: with fewer than `n` positions left no value is returned; the cursor has consumed the
positions that remained. -/
theorem getField_exhausted {n : Nat} {s : State} (h : CursorOk s) (hfit : 8 * cells s < pos s + n) :
    ∃ t, getField n s = .raised .capacityExhausted t ∧ t.exh = true ∧
      Moved s t (8 * cells s - pos s) := by
  suffices ∀ acc, ∃ t, getBits n acc s = .raised .capacityExhausted t ∧ t.exh = true ∧
      Moved s t (8 * cells s - pos s) from this 0
  induction n generalizing s with
  | zero => have := pos_le h; omega
  | succ m ih =>
    intro acc
    by_cases hr : pos s = 8 * cells s
    · have he := exh_eq_true_of_pos_eq h hr
      refine ⟨s, by simp only [getBits, readBit_exhausted he, Flow.bind], he, ?_⟩
      rw [hr, Nat.sub_self]
      exact Moved.refl h
    · have hlt : pos s < 8 * cells s := by have := pos_le h; omega
      obtain ⟨u, hu, mu⟩ := readBit_ok h (exh_eq_false_of_pos_lt hlt)
      obtain ⟨t, ht, he, mt⟩ := ih mu.ok (by rw [mu.pos, mu.only.cells]; omega)
        (acc * 2 + (streamBit s (pos s)).toNat)
      refine ⟨t, by simp only [getBits, hu, Flow.bind, ht], he, ?_⟩
      rw [mu.only.cells, mu.pos] at mt
      have e : 8 * cells s - pos s = 1 + (8 * cells s - (pos s + 1)) := by omega
      exact e ▸ mu.trans mt

/-- A field that was embedded is read back (R104). -/
theorem Embedded.streamField {s t : State} {p n : Nat} {f : Nat → Bool} (h : Embedded s t p n f)
    (hn : Sys2Proof.Machine.cells t = Sys2Proof.Machine.cells s)
    (hfit : p + n ≤ 8 * Sys2Proof.Machine.cells s) {q m v : Nat} (hv : v < 2 ^ m) (hq : q + m ≤ n)
    (hf : ∀ j, j < m → f (q + j) = fieldBit m v j) :
    Sys2Proof.Machine.streamField t (p + q) m = v :=
  streamField_eq hv fun j hj => by
    rw [Nat.add_assoc, h.streamBit hn hfit (by omega), hf j hj]

end Sys2Proof.Machine
end

