-- ==== Sys2Proof/Laws/Codec.lean ====
section
/-! SUPPORT. The macro commands' bodies: the counted loops over payload bytes (R111, R112), the nested
image's three loops as one (R121, R122), and what `ConfigCheck()` lets through. -/

namespace Sys2Proof.Machine

/-! ### Loops -/

theorem loopFrom_shift (k n c : Nat) (body : Nat → State → Flow Unit) (s : State) :
    loopFrom k n (fun i => body (c + i)) s = loopFrom (c + k) n body s := by
  induction n generalizing k s with
  | zero => rfl
  | succ m ih =>
    simp only [loopFrom]
    congr 1
    funext _ u
    rw [ih, Nat.add_assoc]

theorem loopFrom_append (k n m : Nat) (body : Nat → State → Flow Unit) (s : State) :
    loopFrom k (n + m) body s = (loopFrom k n body s).bind fun _ u => loopFrom (k + n) m body u := by
  induction n generalizing k s with
  | zero => simp [loopFrom, Flow.bind]
  | succ j ih =>
    rw [show j + 1 + m = (j + m) + 1 by omega]
    simp only [loopFrom]
    cases body k s with
    | ok _ u => simp only [Flow.bind, ih, show k + 1 + j = k + (j + 1) by omega]
    | raised c u => rfl
    | ambiguous u => rfl
    | stopped f => rfl

theorem loopFrom_congr {k n : Nat} {f g : Nat → State → Flow Unit} (h : ∀ i s, f i s = g i s) (s : State) :
    loopFrom k n f s = loopFrom k n g s := by
  rw [show f = g from funext fun i => funext (h i)]

/-- A loop of loops of `m` consecutive indices is one loop. -/
theorem loopFrom_nested (k n m : Nat) (body : Nat → State → Flow Unit) (s : State) :
    loopFrom k n (fun i u => loopFrom (i * m) m body u) s = loopFrom (k * m) (n * m) body s := by
  induction n generalizing k s with
  | zero => simp [loopFrom]
  | succ j ih =>
    rw [show (j + 1) * m = m + j * m by ring, loopFrom_append (k * m) m (j * m), ← show (k + 1) * m = k * m + m by ring]
    exact congrArg (Flow.bind _) (funext fun _ => funext fun u => ih (k + 1) u)

/-- R46: the loops over width, height and channel visit payload indices `0, 1, .. W1*H1*3 - 1` in
increasing order. -/
theorem imageLoop_eq_loop (w1 h1 : Nat) (body : Nat → State → Flow Unit) (s : State) :
    imageLoop w1 h1 body s = loop (imageBytes w1 h1) body s := by
  have inner : ∀ w h u, loop 3 (fun chan u => body (pidx h1 w h chan) u) u
      = loopFrom ((w * h1 + h) * 3) 3 body u := fun w h u => by
    have := loopFrom_shift 0 3 ((w * h1 + h) * 3) body u
    simpa [loop, pidx] using this
  have middle : ∀ w u, loop h1 (fun h u => loop 3 (fun chan u => body (pidx h1 w h chan) u) u) u
      = loopFrom (w * (h1 * 3)) (h1 * 3) body u := fun w u => by
    have := loopFrom_shift 0 h1 (w * h1) (fun q u => loopFrom (q * 3) 3 body u) u
    rw [Nat.add_zero, loopFrom_nested] at this
    rw [show w * (h1 * 3) = (w * h1) * 3 by ring, ← this, loop]
    exact loopFrom_congr (inner w) u
  have outer := loopFrom_nested 0 w1 (h1 * 3) body s
  rw [imageLoop, loop, loopFrom_congr middle, outer, loop, imageBytes]
  congr 1 <;> ring

/-! ### The bodies -/

/-- R111: one payload byte written. -/
theorem putPayloadByte_ok {k : Nat} {s : State} (h : CursorOk s) (hk : inSpace s.pbufSize k = true)
    (hfit : pos s + 8 ≤ 8 * cells s) :
    ∃ t, putPayloadByte k s = .ok () t ∧ Wrote s t 8 (fieldBit 8 (readByte .payload k s).toNat) := by
  obtain ⟨t, ht, wt⟩ := putField_ok h hfit (readByte .payload k s).toNat
  exact ⟨t, by simp only [putPayloadByte, memRead_ok (show inSpace (sizeOfSpace .payload s) k = true from hk),
    Flow.bind, ht], wt⟩

/-- R111 step 4: `n` payload bytes from index `k` on. -/
theorem putPayload_ok {n k : Nat} {s : State} (h : CursorOk s)
    (hk : ∀ j, j < n → inSpace s.pbufSize (k + j) = true) (hfit : pos s + 8 * n ≤ 8 * cells s) :
    ∃ t, loopFrom k n putPayloadByte s = .ok () t ∧
      Wrote s t (8 * n) fun j => fieldBit 8 (readByte .payload (k + j / 8) s).toNat (j % 8) := by
  induction n generalizing k s with
  | zero => exact ⟨s, rfl, Wrote.refl h _⟩
  | succ m ih =>
    obtain ⟨u, hu, wu⟩ := putPayloadByte_ok h (by simpa using hk 0 (by omega)) (by omega)
    have hsz : u.pbufSize = s.pbufSize := by have := wu.only; unfold OnlyBits at this; rw [this]
    obtain ⟨t, ht, wt⟩ := ih (k := k + 1) wu.ok
      (fun j hj => by rw [hsz, Nat.add_assoc, Nat.add_comm 1]; exact hk (j + 1) (by omega))
      (by rw [wu.pos, wu.only.cells]; omega)
    refine ⟨t, by simp only [loopFrom, hu, Flow.bind, ht], ?_⟩
    rw [show 8 * (m + 1) = 8 + 8 * m by ring]
    refine (wu.trans wt).congr fun j _ => ?_
    have hp : ∀ a, readByte .payload a u = readByte .payload a s :=
      readByte_congr .payload wu.only.payload
    split
    · next hj => rw [Nat.div_eq_of_lt hj, Nat.mod_eq_of_lt hj, Nat.add_zero]
    · next hj =>
      rw [hp, show k + 1 + (j - 8) / 8 = k + j / 8 by omega, show (j - 8) % 8 = j % 8 by omega]

/-- What a run of `n` decoded bytes from payload index `k` on leaves. -/
structure Received (s t : State) (k n : Nat) : Prop where
  ok : CursorOk t
  pos : pos t = pos s + 8 * n
  atEnd : (s.exh = true → AtEnd s) → t.exh = true → AtEnd t
  only : OnlyPayload s t
  bytes : ∀ a, readByte .payload a t =
    if k ≤ a ∧ a < k + n then BitVec.ofNat 8 (streamField s (Sys2Proof.Machine.pos s + 8 * (a - k)) 8)
    else readByte .payload a s

theorem Received.refl {s : State} (h : CursorOk s) (k : Nat) : Received s s k 0 :=
  ⟨h, rfl, id, OnlyPayload.refl s, fun a => by rw [if_neg (by omega)]⟩

/-- R112: one payload byte read. -/
theorem getPayloadByte_ok {k : Nat} {s : State} (h : CursorOk s) (hk : inSpace s.pbufSize k = true)
    (hfit : pos s + 8 ≤ 8 * cells s) :
    ∃ t, getPayloadByte k s = .ok () t ∧ Received s t k 1 := by
  obtain ⟨u, hu, mu⟩ := getField_ok h hfit
  have hsz : u.pbufSize = s.pbufSize := by have := mu.only; unfold OnlyCursor at this; rw [this]
  have hpl : u.payload = s.payload := by have := mu.only; unfold OnlyCursor at this; rw [this]
  have hin : inSpace (sizeOfSpace .payload u) k = true := by rw [← hk, ← hsz]; rfl
  refine ⟨writeByte .payload k (BitVec.ofNat 8 (streamField s (pos s) 8)) u,
    by simp only [getPayloadByte, hu, Flow.bind, memWrite_ok hin],
    ⟨mu.ok.row_lt, mu.ok.col_lt, mu.ok.chan_lt, mu.ok.fits⟩, mu.pos, mu.atEnd,
    mu.only.onlyPayload.trans (OnlyPayload.writeByte _ _ _), fun a => ?_⟩
  rw [readByte_writeByte]
  by_cases ha : a = k
  · subst ha
    rw [if_pos ⟨rfl, rfl⟩, if_pos (by omega), Nat.sub_self, Nat.mul_zero, Nat.add_zero]
  · rw [if_neg (fun e => ha e.2), if_neg (by omega)]
    exact readByte_congr .payload hpl a

theorem Received.trans {s t u : State} {k n m : Nat} (h : Received s t k n) (h' : Received t u (k + n) m) :
    Received s u k (n + m) :=
  ⟨h'.ok, by rw [h'.pos, h.pos]; ring, fun e => h'.atEnd (h.atEnd e), h.only.trans h'.only, fun a => by
    rw [h'.bytes, h.bytes, h.pos, streamField_congr h.only.raster h.only.cells]
    by_cases h1 : k ≤ a
    · by_cases h2 : a < k + n
      · rw [if_neg (by omega), if_pos (by omega), if_pos (by omega)]
      · by_cases h3 : a < k + n + m
        · rw [if_pos (by omega), if_pos (by omega)]
          congr 2
          omega
        · rw [if_neg (by omega), if_neg (by omega), if_neg (by omega)]
    · rw [if_neg (by omega), if_neg (by omega), if_neg (by omega)]⟩

/-- R112 step 4: `n` payload bytes into index `k` on. -/
theorem getPayload_ok {n k : Nat} {s : State} (h : CursorOk s)
    (hk : ∀ j, j < n → inSpace s.pbufSize (k + j) = true) (hfit : pos s + 8 * n ≤ 8 * cells s) :
    ∃ t, loopFrom k n getPayloadByte s = .ok () t ∧ Received s t k n := by
  induction n generalizing k s with
  | zero => exact ⟨s, rfl, Received.refl h k⟩
  | succ m ih =>
    obtain ⟨u, hu, du⟩ := getPayloadByte_ok h (by simpa using hk 0 (by omega)) (by omega)
    have hsz : u.pbufSize = s.pbufSize := by have := du.only; unfold OnlyPayload at this; rw [this]
    obtain ⟨t, ht, dt⟩ := ih (k := k + 1) du.ok
      (fun j hj => by rw [hsz, Nat.add_assoc, Nat.add_comm 1]; exact hk (j + 1) (by omega))
      (by rw [du.pos, du.only.cells]; omega)
    exact ⟨t, by simp only [loopFrom, hu, Flow.bind, ht], Nat.add_comm m 1 ▸ du.trans dt⟩

/-- R112, C7: where the raster runs out before `n` bytes, the whole bytes before it have been written and
the cursor is exhausted. -/
theorem getPayload_exhausted {n k : Nat} {s : State} (h : CursorOk s)
    (hk : ∀ j, j < n → inSpace s.pbufSize (k + j) = true) (hfit : 8 * cells s < pos s + 8 * n) :
    ∃ t u, loopFrom k n getPayloadByte s = .raised .capacityExhausted t ∧ t.exh = true ∧
      Received s u k ((8 * cells s - pos s) / 8) ∧ Moved u t (8 * cells s - pos u) := by
  induction n generalizing k s with
  | zero => have := pos_le h; omega
  | succ m ih =>
    by_cases hr : pos s + 8 ≤ 8 * cells s
    · obtain ⟨v, hv, dv⟩ := getPayloadByte_ok h (by simpa using hk 0 (by omega)) hr
      have hsz : v.pbufSize = s.pbufSize := by have := dv.only; unfold OnlyPayload at this; rw [this]
      obtain ⟨t, u, ht, he, du, mu⟩ := ih (k := k + 1) dv.ok
        (fun j hj => by rw [hsz, Nat.add_assoc, Nat.add_comm 1]; exact hk (j + 1) (by omega))
        (by rw [dv.pos, dv.only.cells]; omega)
      refine ⟨t, u, by simp only [loopFrom, hv, Flow.bind, ht], he, ?_, dv.only.cells ▸ mu⟩
      rw [dv.only.cells, dv.pos] at du
      rw [show (8 * cells s - pos s) / 8 = 1 + (8 * cells s - (pos s + 8 * 1)) / 8 by omega]
      exact dv.trans du
    · obtain ⟨t, ht, he, mt⟩ := getField_exhausted (n := 8) h (by omega)
      refine ⟨t, s, by simp only [loopFrom, getPayloadByte, ht, Flow.bind], he, ?_, mt⟩
      rw [show (8 * cells s - pos s) / 8 = 0 by omega]
      exact Received.refl h k

/-! ### The tests before a body -/

theorem configCheck_ok {s : State} (h : badConfig s = false) : configCheck s = .ok () s := by
  simp [configCheck, raiseIf, h]

theorem configCheck_bad {s : State} (h : badConfig s = true) : configCheck s = .raised .badConfig s := by
  simp [configCheck, raiseIf, h]

theorem requireCursor_ok {s : State} (h : s.cvalid = true) : requireCursor s = .ok () s := by
  simp [requireCursor, raiseIf, h]

theorem requireCursor_none {s : State} (h : s.cvalid = false) :
    requireCursor s = .raised .noCursor s := by
  simp [requireCursor, raiseIf, h]

theorem raiseIf_false {b : Bool} (h : b = false) (k : Cause) (s : State) : raiseIf b k s = .ok () s := by
  simp [raiseIf, h]

theorem raiseIf_true {b : Bool} (h : b = true) (k : Cause) (s : State) : raiseIf b k s = .raised k s := by
  simp [raiseIf, h]

end Sys2Proof.Machine
end

