-- ==== Sys2Proof/Laws/Frames.lean ====
section
/-! SUPPORT. Everything an operation can end in: `Flow.Ends P` says that whichever way a line of pseudocode
ends, its outcome and its state meet `P`. One lemma per shared operation, for any condition `P` on the state
that the operation's own updates keep, so that a rule about the whole command set needs no unfolding of the
datapath. -/

namespace Sys2Proof.Machine

/-- Every way this line can end, with the outcome `STATUS` would take (`ok` where it goes on). -/
def Flow.Ends {α : Type} (P : Status → State → Prop) (x : Flow α) : Prop :=
  match x with
  | .ok _ s => P .ok s
  | .raised k s => P (causeStatus k) s
  | .ambiguous s => P .ambiguousHeader s
  | .stopped _ => True

/-- A bit operation goes on or raises `CapacityExhausted` (R82, R83); its state meets `P`. -/
def BitEnd (P : State → Prop) (o : Status) (s : State) : Prop :=
  P s ∧ (o = .ok ∨ o = .capacityExhausted)

theorem Flow.Ends.bind_to {α β : Type} {P Q : Status → State → Prop} {x : Flow α}
    {next : α → State → Flow β} (hx : x.Ends P) (hpq : ∀ o s, o ≠ .ok → P o s → Q o s)
    (hn : ∀ a s, P .ok s → (next a s).Ends Q) : (x.bind next).Ends Q := by
  cases x with
  | ok a s => exact hn a s hx
  | raised k s => exact hpq _ s (by cases k <;> exact nofun) hx
  | ambiguous s => exact hpq _ s nofun hx
  | stopped f => trivial

theorem Flow.Ends.bind {α β : Type} {P : Status → State → Prop} {x : Flow α} {next : α → State → Flow β}
    (hx : x.Ends P) (hn : ∀ a s, P .ok s → (next a s).Ends P) : (x.bind next).Ends P :=
  hx.bind_to (fun _ _ _ h => h) hn

theorem Flow.Ends.imp {α : Type} {P Q : Status → State → Prop} {x : Flow α} (hx : x.Ends P)
    (h : ∀ o s, P o s → Q o s) : x.Ends Q := by
  cases x with
  | ok a s => exact h _ s hx
  | raised k s => exact h _ s hx
  | ambiguous s => exact h _ s hx
  | stopped f => trivial

theorem raiseIf_ends {P : Status → State → Prop} {b : Bool} {k : Cause} {s : State}
    (hf : b = false → P .ok s) (ht : b = true → P (causeStatus k) s) : (raiseIf b k s).Ends P := by
  unfold raiseIf; split
  · next h => exact ht h
  · next h => exact hf (by simpa using h)

section
variable {P : State → Prop}

theorem memRead_ends {s : State} (hs : P s) (sp : Space) (a : Nat) : (memRead sp a s).Ends (BitEnd P) := by
  unfold memRead; split
  · exact ⟨hs, .inl rfl⟩
  · trivial

theorem memWrite_ends {s : State} (sp : Space) (a : Nat) (v : Byte)
    (hw : inSpace (sizeOfSpace sp s) a = true → P (writeByte sp a v s)) :
    (memWrite sp a v s).Ends (BitEnd P) := by
  unfold memWrite; split
  · next h => exact ⟨hw h, .inl rfl⟩
  · trivial

theorem advance_ends (hadv : ∀ s, s.exh = false → P s → P (stepCursor s)) {s : State} (hs : P s) :
    (advance s).Ends (BitEnd P) := by
  unfold advance; split
  · exact ⟨hs, .inr rfl⟩
  · next h => exact ⟨hadv s (by simpa using h) hs, .inl rfl⟩

theorem writeBit_ends (hadv : ∀ s, s.exh = false → P s → P (stepCursor s))
    (hras : ∀ s a v, inSpace s.rasterSize a = true → P s → P (writeByte .raster a v s))
    {s : State} (hs : P s) (v : Bool) : (writeBit v s).Ends (BitEnd P) := by
  unfold writeBit; split
  · exact ⟨hs, .inr rfl⟩
  · exact (memRead_ends hs _ _).bind fun b u hu =>
      (memWrite_ends _ _ _ fun h => hras u _ _ h hu.1).bind fun _ w hw => advance_ends hadv hw.1

theorem readBit_ends (hadv : ∀ s, s.exh = false → P s → P (stepCursor s)) {s : State} (hs : P s) :
    (readBit s).Ends (BitEnd P) := by
  unfold readBit; split
  · exact ⟨hs, .inr rfl⟩
  · exact (memRead_ends hs _ _).bind fun b u hu => (advance_ends hadv hu.1).bind fun _ w hw => hw

theorem putField_ends (hadv : ∀ s, s.exh = false → P s → P (stepCursor s))
    (hras : ∀ s a v, inSpace s.rasterSize a = true → P s → P (writeByte .raster a v s))
    {n : Nat} {s : State} (hs : P s) (v : Nat) : (putField n v s).Ends (BitEnd P) := by
  induction n generalizing s with
  | zero => exact ⟨hs, .inl rfl⟩
  | succ m ih => exact (writeBit_ends hadv hras hs _).bind fun _ u hu => ih hu.1

theorem getField_ends (hadv : ∀ s, s.exh = false → P s → P (stepCursor s)) {n : Nat} {s : State} (hs : P s) :
    (getField n s).Ends (BitEnd P) := by
  suffices ∀ acc, (getBits n acc s).Ends (BitEnd P) from this 0
  induction n generalizing s with
  | zero => exact fun _ => ⟨hs, .inl rfl⟩
  | succ m ih => exact fun _ => (readBit_ends hadv hs).bind fun _ u hu => ih hu.1 _

theorem loopFrom_ends {body : Nat → State → Flow Unit} (hb : ∀ i s, P s → (body i s).Ends (BitEnd P))
    {n k : Nat} {s : State} (hs : P s) : (loopFrom k n body s).Ends (BitEnd P) := by
  induction n generalizing k s with
  | zero => exact ⟨hs, .inl rfl⟩
  | succ m ih => exact (hb k s hs).bind fun _ u hu => ih hu.1

theorem imageLoop_ends {body : Nat → State → Flow Unit} (hb : ∀ i s, P s → (body i s).Ends (BitEnd P))
    {w1 h1 : Nat} {s : State} (hs : P s) : (imageLoop w1 h1 body s).Ends (BitEnd P) := by
  rw [imageLoop_eq_loop]; exact loopFrom_ends hb hs

theorem putPayloadByte_ends (hadv : ∀ s, s.exh = false → P s → P (stepCursor s))
    (hras : ∀ s a v, inSpace s.rasterSize a = true → P s → P (writeByte .raster a v s))
    (k : Nat) {s : State} (hs : P s) : (putPayloadByte k s).Ends (BitEnd P) :=
  (memRead_ends hs _ _).bind fun _ _ hu => putField_ends hadv hras hu.1 _

theorem getPayloadByte_ends (hadv : ∀ s, s.exh = false → P s → P (stepCursor s))
    (hpay : ∀ s a v, inSpace s.pbufSize a = true → P s → P (writeByte .payload a v s))
    (k : Nat) {s : State} (hs : P s) : (getPayloadByte k s).Ends (BitEnd P) :=
  (getField_ends hadv hs).bind fun _ u hu => memWrite_ends _ _ _ fun h => hpay u _ _ h hu.1

end

/-- What a command's end can leave, said once: one of the three updates of R19, R143 and R146 on a state
the pseudocode ended in. -/
theorem endCommand_next {P : Status → State → Prop} {x : Flow Unit} (hx : x.Ends P) {t : State}
    (h : endCommand x = .next t) :
    ∃ s, (P .ok s ∧ t = succeed s) ∨ (∃ k, P (causeStatus k) s ∧ t = takeFault k s) ∨
      (P .ambiguousHeader s ∧ t = signalAmbiguous s) := by
  cases x with
  | ok _ s => exact ⟨s, .inl ⟨hx, (Host.Outcome.next.inj h).symm⟩⟩
  | raised k s => exact ⟨s, .inr (.inl ⟨k, hx, (Host.Outcome.next.inj h).symm⟩)⟩
  | ambiguous s => exact ⟨s, .inr (.inr ⟨hx, (Host.Outcome.next.inj h).symm⟩)⟩
  | stopped f => exact nomatch h

/-! ### The tests of R12 and R141 -/

/-- A legal configuration passes `ConfigCheck()` (R12, R81). -/
theorem badConfig_eq_false {s : State} (h : LegalConfig s) : badConfig s = false := by
  obtain ⟨hw, hh, hc, hf⟩ := h
  simp only [badConfig, Bool.or_eq_false_iff, decide_eq_false_iff_not, not_or]
  refine ⟨⟨?_, ?_, ?_⟩, ?_⟩
  · rintro e; simp [e] at hw
  · rintro e; simp [e] at hh
  · rintro e; simp [e] at hc
  · cases hs : s.rasterSize with
    | none => rfl
    | some m => exact decide_eq_false (Nat.not_lt.mpr (hf m hs))

/-- Every configuration that is not legal is refused (R81). -/
theorem badConfig_eq_true {s : State} (h : ¬ LegalConfig s) : badConfig s = true := by
  by_contra hb
  rw [Bool.not_eq_true] at hb
  simp only [badConfig, Bool.or_eq_false_iff, decide_eq_false_iff_not, not_or] at hb
  obtain ⟨⟨hw, hh, hc⟩, hf⟩ := hb
  refine h ⟨?_, ?_, ?_, fun m hm => ?_⟩
  · exact Nat.one_le_iff_ne_zero.mpr fun e => hw (BitVec.eq_of_toNat_eq e)
  · exact Nat.one_le_iff_ne_zero.mpr fun e => hh (BitVec.eq_of_toNat_eq e)
  · exact Nat.one_le_iff_ne_zero.mpr fun e => hc (BitVec.eq_of_toNat_eq e)
  · rw [hm] at hf
    exact Nat.not_lt.mp (of_decide_eq_false hf)

theorem exceeds_eq_false {s : State} {n : Nat} (h : FitsPayload s n) : exceeds s.pbufSize n = false := by
  cases hs : s.pbufSize with
  | none => rfl
  | some m => exact decide_eq_false (Nat.not_lt.mpr (h m hs))

theorem exceeds_eq_true {s : State} {n : Nat} (h : ¬ FitsPayload s n) : exceeds s.pbufSize n = true := by
  by_contra hb
  rw [Bool.not_eq_true] at hb
  exact h fun m hm => by
    rw [hm] at hb
    exact Nat.not_lt.mp (of_decide_eq_false hb)

theorem inSpace_of_fits {s : State} {n : Nat} (h : FitsPayload s n) {a : Nat} (ha : a < n) :
    inSpace s.pbufSize a = true := inSpace_of_lt (exceeds_eq_false h) ha

/-- Whether a configuration is legal depends on `W`, `H`, `C` and the size alone. -/
theorem LegalConfig.congr {s t : State} (h : LegalConfig s) (hw : t.w = s.w) (hh : t.h = s.h)
    (hc : t.c = s.c) (hr : t.rasterSize = s.rasterSize) : LegalConfig t := by
  unfold LegalConfig at *
  rwa [hw, hh, hc, hr]

end Sys2Proof.Machine
end

