-- ==== Sys2Proof/Laws/Exec.lean ====
section
/-! SUPPORT. What each instruction can do to the state, said once for all of them: `exec_keeps` reduces a
rule about every command to the updates that command's pseudocode contains. -/

namespace Sys2Proof.Machine

/-- The commands with a `WriteBit` in them (R50). -/
def writesRaster : Instr → Bool
  | .cinit => false
  | .wbit _ => true
  | .rbit => false
  | .wfld8 => true
  | .wfld16 => true
  | .wfld64 => true
  | .rfld8 => false
  | .rfld16 => false
  | .rfld64 => false
  | .encb => true
  | .decb => false
  | .enci => true
  | .deci => false
  | .clrf => false

/-- The widths of R64, by command: 0 where the command is no field read. -/
def readWidth : Instr → Nat
  | .cinit => 0
  | .wbit _ => 0
  | .rbit => 0
  | .wfld8 => 0
  | .wfld16 => 0
  | .wfld64 => 0
  | .rfld8 => 8
  | .rfld16 => 16
  | .rfld64 => 64
  | .encb => 0
  | .decb => 0
  | .enci => 0
  | .deci => 0
  | .clrf => 0

/-- A condition that every update in the pseudocode of `i` keeps. -/
structure KeptBy (i : Instr) (P : State → Prop) : Prop where
  advance : ∀ s, s.exh = false → P s → P (stepCursor s)
  raster : writesRaster i = true → ∀ s a v, inSpace s.rasterSize a = true → P s → P (writeByte .raster a v s)
  payload : i = .decb ∨ i = .deci → ∀ s a v, inSpace s.pbufSize a = true → P s → P (writeByte .payload a v s)
  cinit : i = .cinit → ∀ s, badConfig s = false → P s → P (openSession s)
  macroOpen : i = .encb ∨ i = .decb ∨ i = .enci ∨ i = .deci →
    ∀ s, badConfig s = false → P s → P (openSession s)
  macroSession : i = .encb ∨ i = .decb ∨ i = .enci ∨ i = .deci → ∀ v s, P s → P (setSession v s)
  macroClose : i = .encb ∨ i = .decb ∨ i = .enci ∨ i = .deci → ∀ s, P s → P (closeSession s)
  bitq : i = .rbit → ∀ s b, P s → P { s with bitq := b }
  fld : readWidth i ≠ 0 → ∀ s v, P s → P { s with fld := v }
  len : i = .decb → ∀ s v, P s → P { s with len := v }
  image : i = .deci → ∀ s v w, P s → P { s with imgw := v, imgh := w }
  log : i = .clrf → ∀ s, P s → P { s with flog := 0#8 }

theorem BitEnd.state {P : State → Prop} {o : Status} {s : State} (h : BitEnd P o s) : P s := h.1

/-- `BitEnd` without the outcome. -/
def Meets (P : State → Prop) (_ : Status) (s : State) : Prop := P s

theorem Flow.Ends.meets {α : Type} {P : State → Prop} {x : Flow α} (h : x.Ends (BitEnd P)) :
    x.Ends (Meets P) := h.imp fun _ _ h => h.1

theorem raiseIf_meets {P : State → Prop} {s : State} (hs : P s) (b : Bool) (k : Cause) :
    (raiseIf b k s).Ends (Meets P) := raiseIf_ends (fun _ => hs) (fun _ => hs)

/-- A test at the start of a command: the rest of the command sees the same state. -/
theorem raiseIf_bind_meets {P : State → Prop} {b : Bool} {k : Cause} {s : State}
    {next : Unit → State → Flow Unit} (hs : P s) (hn : b = false → (next () s).Ends (Meets P)) :
    ((raiseIf b k s).bind next).Ends (Meets P) := by
  unfold raiseIf
  split
  · exact hs
  · next h => exact hn (by simpa using h)

theorem writeField_meets {P : State → Prop} (hadv : ∀ s, s.exh = false → P s → P (stepCursor s))
    (hras : ∀ s a v, inSpace s.rasterSize a = true → P s → P (writeByte .raster a v s)) (n : Nat)
    {s : State} (hs : P s) : (writeField n s).Ends (Meets P) :=
  (raiseIf_meets hs _ _).bind fun _ _ hu => (putField_ends hadv hras hu _).meets

theorem readField_meets {P : State → Prop} (hadv : ∀ s, s.exh = false → P s → P (stepCursor s))
    (hfld : ∀ s v, P s → P { s with fld := v }) (n : Nat) {s : State} (hs : P s) :
    (readField n s).Ends (Meets P) :=
  (raiseIf_meets hs _ _).bind fun _ _ hu =>
    (getField_ends hadv hu).meets.bind fun _ w hw => hfld w _ hw

/-- What a command can leave, for every instruction: one of the three ends of R19, R143 and R146, on a
state that meets every condition the command's own updates keep. -/
theorem exec_keeps {i : Instr} {s t : State} {P : State → Prop} (h : exec i s = .next t) (hs : P s)
    (hk : KeptBy i P) :
    ∃ u, P u ∧ (t = succeed u ∨ (∃ k, t = takeFault k u) ∨ t = signalAmbiguous u) := by
  suffices ∃ x, exec i s = endCommand x ∧ x.Ends (Meets P) by
    obtain ⟨x, hx, he⟩ := this
    obtain ⟨u, hu⟩ := endCommand_next he (hx ▸ h)
    rcases hu with ⟨hp, rfl⟩ | ⟨k, hp, rfl⟩ | ⟨hp, rfl⟩
    · exact ⟨u, hp, .inl rfl⟩
    · exact ⟨u, hp, .inr (.inl ⟨k, rfl⟩)⟩
    · exact ⟨u, hp, .inr (.inr rfl)⟩
  have hadv := hk.advance
  cases i with
  | cinit => exact ⟨_, rfl, raiseIf_bind_meets hs fun hb => hk.cinit rfl s hb hs⟩
  | wbit v =>
    exact ⟨_, rfl, (raiseIf_meets hs _ _).bind fun _ _ hu => (writeBit_ends hadv (hk.raster rfl) hu v).meets⟩
  | rbit =>
    exact ⟨_, rfl, (raiseIf_meets hs _ _).bind fun _ _ hu =>
      (readBit_ends hadv hu).meets.bind fun b w hw => hk.bitq rfl w b hw⟩
  | wfld8 => exact ⟨_, rfl, writeField_meets hadv (hk.raster rfl) 8 hs⟩
  | wfld16 => exact ⟨_, rfl, writeField_meets hadv (hk.raster rfl) 16 hs⟩
  | wfld64 => exact ⟨_, rfl, writeField_meets hadv (hk.raster rfl) 64 hs⟩
  | rfld8 => exact ⟨_, rfl, readField_meets hadv (hk.fld nofun) 8 hs⟩
  | rfld16 => exact ⟨_, rfl, readField_meets hadv (hk.fld nofun) 16 hs⟩
  | rfld64 => exact ⟨_, rfl, readField_meets hadv (hk.fld nofun) 64 hs⟩
  | encb =>
    have hm := hk.macroSession (.inl rfl)
    exact ⟨_, rfl, raiseIf_bind_meets hs fun hb =>
      raiseIf_bind_meets hs fun _ =>
      raiseIf_bind_meets hs fun _ =>
      (putField_ends hadv (hk.raster rfl) (hk.macroOpen (.inl rfl) s hb hs) _).meets.bind fun _ _ hw =>
      (loopFrom_ends (fun k _ hs => putPayloadByte_ends hadv (hk.raster rfl) k hs) (hm _ _ (hm _ _ hw))).meets.bind
        fun _ x hx => hk.macroClose (.inl rfl) x hx⟩
  | decb =>
    have hd : Instr.decb = .encb ∨ Instr.decb = .decb ∨ Instr.decb = .enci ∨ Instr.decb = .deci :=
      .inr (.inl rfl)
    have hm := hk.macroSession hd
    refine ⟨_, rfl, raiseIf_bind_meets hs fun hb =>
      (getField_ends hadv (hk.macroOpen hd s hb hs)).meets.bind fun l u hu => ?_⟩
    have hh := hm .header _ (hk.len rfl u (BitVec.ofNat 64 l) hu)
    dsimp only
    split
    · exact (raiseIf_meets hh _ _).bind fun _ _ hw =>
        (loopFrom_ends (fun k _ hs => getPayloadByte_ends hadv (hk.payload (.inl rfl)) k hs)
          (hm _ _ hw)).meets.bind fun _ x hx => hk.macroClose hd x hx
    · exact hh
  | enci =>
    have hd : Instr.enci = .encb ∨ Instr.enci = .decb ∨ Instr.enci = .enci ∨ Instr.enci = .deci :=
      .inr (.inr (.inl rfl))
    have hm := hk.macroSession hd
    exact ⟨_, rfl, raiseIf_bind_meets hs fun hb =>
      raiseIf_bind_meets hs fun _ =>
      raiseIf_bind_meets hs fun _ =>
      (putField_ends hadv (hk.raster rfl) (hk.macroOpen hd s hb hs) _).meets.bind fun _ _ hv =>
      (putField_ends hadv (hk.raster rfl) hv _).meets.bind fun _ _ hw =>
      (imageLoop_ends (fun k _ hs => putPayloadByte_ends hadv (hk.raster rfl) k hs)
        (hm _ _ (hm _ _ hw))).meets.bind fun _ x hx => hk.macroClose hd x hx⟩
  | deci =>
    have hd : Instr.deci = .encb ∨ Instr.deci = .decb ∨ Instr.deci = .enci ∨ Instr.deci = .deci :=
      .inr (.inr (.inr rfl))
    have hm := hk.macroSession hd
    refine ⟨_, rfl, raiseIf_bind_meets hs fun hb =>
      (getField_ends hadv (hk.macroOpen hd s hb hs)).meets.bind fun w1 v hv =>
      (getField_ends hadv hv).meets.bind fun h1 u hu => ?_⟩
    have hh := hm .header _ (hk.image rfl u (BitVec.ofNat 16 w1) (BitVec.ofNat 16 h1) hu)
    dsimp only
    split
    · exact (raiseIf_meets hh _ _).bind fun _ _ hw =>
        (imageLoop_ends (fun k _ hs => getPayloadByte_ends hadv (hk.payload (.inr rfl)) k hs)
          (hm _ _ hw)).meets.bind fun _ x hx => hk.macroClose hd x hx
    · exact hh
  | clrf => exact ⟨.ok () { s with flog := 0#8 }, rfl, hk.log rfl s hs⟩

end Sys2Proof.Machine
end

