-- ==== Sys2Proof/Tests/Slice0.lean ====
section
/-! SUPPORT. The model's own tests: words written out from spec/30_encoding.md R62 to R64, one step each on
small states with the end states of spec/95_test_vectors.md (V1 to V42, P1 to P5), and for every statement
with hypotheses a concrete state that meets them together. -/

namespace Sys2Proof.Tests

open Sys2Proof.Machine

/-! ### Decoding, by words written out from R62 to R64 -/

theorem test_decode_cinit : decodeTableWord 8 0b00010000 = some .cinit := by decide
theorem test_decode_wbit_0 : decodeTableWord 8 0b00100000 = some (.wbit false) := by decide
theorem test_decode_wbit_1 : decodeTableWord 8 0b00100001 = some (.wbit true) := by decide
theorem test_decode_rbit : decodeTableWord 8 0b00110000 = some .rbit := by decide
theorem test_decode_wfld8 : decodeTableWord 8 0b01000000 = some .wfld8 := by decide
theorem test_decode_wfld16 : decodeTableWord 8 0b01000001 = some .wfld16 := by decide
theorem test_decode_wfld64 : decodeTableWord 8 0b01000010 = some .wfld64 := by decide
theorem test_decode_rfld8 : decodeTableWord 8 0b01010000 = some .rfld8 := by decide
theorem test_decode_rfld16 : decodeTableWord 8 0b01010001 = some .rfld16 := by decide
theorem test_decode_rfld64 : decodeTableWord 8 0b01010010 = some .rfld64 := by decide
theorem test_decode_encb : decodeTableWord 8 0b10000000 = some .encb := by decide
theorem test_decode_decb : decodeTableWord 8 0b10010000 = some .decb := by decide
theorem test_decode_enci : decodeTableWord 8 0b10100000 = some .enci := by decide
theorem test_decode_deci : decodeTableWord 8 0b10110000 = some .deci := by decide
theorem test_decode_clrf : decodeTableWord 8 0b11000000 = some .clrf := by decide

/-- R66's listing, the encoder's side. -/
theorem test_encode_listing :
    [Instr.cinit, .wbit false, .wbit true, .rbit, .wfld8, .wfld16, .wfld64, .rfld8, .rfld16, .rfld64, .encb,
      .decb, .enci, .deci, .clrf].map encode = legalWords := by decide

/-- V41's sixteen illegal words, with the reason R65 gives each. -/
theorem test_decode_illegal :
    [0x00#8, 0x60#8, 0x70#8, 0xD0#8, 0xE0#8, 0xFF#8].map decode = List.replicate 6 (.illegal .unassignedOperation) ∧
    [0x11#8, 0x22#8, 0x31#8, 0x81#8, 0x9F#8, 0xA8#8, 0xB1#8, 0xC1#8].map decode =
      List.replicate 8 (.illegal .nonzeroBits) ∧
    [0x43#8, 0x53#8].map decode = List.replicate 2 (.illegal .reservedWidth) := by decide

/-- R65: 241 illegal words. -/
theorem test_illegal_count : ((List.range 256).filter fun w => (decodeTableWord 8 w).isNone).length = 241 := by
  decide +kernel

/-! ### Well-formedness: one ill-formed term for each check of R62 -/

theorem test_wellFormed_z : (RawCommand.mk .encb 0b0000#4).wellFormed = true ∧
    (RawCommand.mk .encb 0b1000#4).wellFormed = false ∧ decode (RawCommand.mk .encb 0b1000#4).word = .illegal .nonzeroBits := by
  decide

theorem test_wellFormed_b : (RawCommand.mk .wbit 0b0001#4).wellFormed = true ∧
    (RawCommand.mk .wbit 0b0010#4).wellFormed = false ∧ decode (RawCommand.mk .wbit 0b0010#4).word = .illegal .nonzeroBits := by
  decide

theorem test_wellFormed_f_width : (RawCommand.mk .rfld 0b0010#4).wellFormed = true ∧
    (RawCommand.mk .rfld 0b0011#4).wellFormed = false ∧ decode (RawCommand.mk .rfld 0b0011#4).word = .illegal .reservedWidth := by
  decide

theorem test_wellFormed_f_zeros : (RawCommand.mk .wfld 0b0100#4).wellFormed = false ∧
    decode (RawCommand.mk .wfld 0b0100#4).word = .illegal .nonzeroBits := by decide

/-! ### States to start from -/

/-- A memory that holds these bytes from an address on. -/
def bytesFrom (a : Nat) : List Byte → Memory
  | [] => []
  | b :: bs => (a, b) :: bytesFrom (a + 1) bs

/-- The block after reset, with dimensions and a loaded carrier (R173 steps 1 and 2). -/
def carrier (w h : Dim) (c : ChanCount) (bytes : List Byte) : State :=
  { State.reset with w := w, h := h, c := c, raster := bytesFrom 0 bytes }

/-- A live cursor at `(row, col, chan, plane)` over it. -/
def live (s : State) (row col : Dim) (chan : ChanCount) (plane : BitVec 3) : State :=
  { s with row := row, col := col, chan := chan, plane := plane, cvalid := true }

/-- The cursor after its last position. -/
def spent (s : State) : State := { live s 0 0 0 7 with exh := true }

/-- A view of the end state, where the command has one. -/
def ended {α : Type} (o : Host.Outcome State Fault Refusal) (view : State → α) : Option α :=
  match o with
  | .next t => some (view t)
  | .fault _ => none
  | .refused _ => none

/-- `(ROW, COL, CHAN, PLANE)`, as the vectors write it. -/
def cursor (s : State) : List Nat := [s.row.toNat, s.col.toNat, s.chan.toNat, s.plane.toNat]

/-- The vectors' columns. -/
structure Columns where
  cvalid : Bool
  exh : Bool
  session : Session
  status : Status
  flog : BitVec 8
  deriving DecidableEq, Repr

def outcome (s : State) : Columns := ⟨s.cvalid, s.exh, s.session, s.status, s.flog⟩

/-! ### One step per test: the cursor commands -/

/-- V7. -/
theorem test_cinit_bad_config :
    ended (exec .cinit { carrier 10 10 3 [] with rasterSize := some 100 }) outcome =
      some ⟨false, false, .failed, .badConfig, 0x20#8⟩ := by decide

/-- R86: `CINIT` leaves `FAILED` and discards the old cursor. -/
theorem test_cinit_from_failed :
    ended (exec .cinit { spent (carrier 10 10 3 []) with session := .failed }) (fun t => (cursor t, outcome t)) =
      some ([0, 0, 0, 0], ⟨true, false, .idle, .ok, 0#8⟩) := by decide

/-- V2. -/
theorem test_wbit_clears :
    ended (exec (.wbit false) (live (carrier 2 1 3 [0xFF#8, 0x00#8]) 0 0 0 0)) (fun t => (t.raster, cursor t)) =
      some (bytesFrom 0 [0xFE#8, 0x00#8], [0, 0, 1, 0]) := by decide

/-- V5, the eighth and last write. -/
theorem test_wbit_last :
    ended (exec (.wbit true) (live (carrier 1 1 1 [0x25#8]) 0 0 0 7)) (fun t => (t.raster, cursor t, outcome t)) =
      some ([(0, 0xA5#8)], [0, 0, 0, 7], ⟨true, true, .idle, .ok, 0#8⟩) := by decide

/-- V1, from position 11 to 12: channel, column and row wrap together, and the plane is promoted. -/
theorem test_rbit_promotes :
    ended (exec .rbit (live (carrier 2 2 3 (List.replicate 12 0x01#8)) 1 1 2 0))
      (fun t => (cursor t, hostRead 0x0C#8 t, t.bitq)) = some ([0, 0, 0, 1], 2#64, true) := by decide

/-- V4, the ninth read. -/
theorem test_rbit_exhausted :
    ended (exec .rbit { spent (carrier 1 1 1 [0xA5#8]) with bitq := true }) (fun t => (t.bitq, cursor t, outcome t)) =
      some (true, [0, 0, 0, 7], ⟨false, true, .failed, .capacityExhausted, 0x04#8⟩) := by decide

/-! ### The field commands -/

/-- V10. -/
theorem test_wfld8 :
    ended (exec .wfld8 { live (carrier 4 2 3 (List.replicate 24 0#8)) 0 0 0 0 with fld := 0xA5#64 })
      (fun t => (t.raster.take 8, cursor t, t.fld)) =
      some (bytesFrom 0 [1, 0, 1, 0, 0, 1, 0, 1], [0, 2, 2, 0], 0xA5#64) := by decide

/-- V13. -/
theorem test_wfld8_runs_out :
    ended (exec .wfld8 { live (carrier 1 1 1 [0#8]) 0 0 0 5 with fld := 0xFF#64 })
      (fun t => (t.raster, cursor t, t.fld, outcome t)) =
      some ([(0, 0xE0#8)], [0, 0, 0, 7], 0xFF#64, ⟨false, true, .failed, .capacityExhausted, 0x04#8⟩) := by decide

/-- R102: the low 16 bits, 0x8001, most significant first; `FLD[63:16]` is ignored. -/
theorem test_wfld16 :
    ended (exec .wfld16 { live (carrier 16 1 1 (List.replicate 16 0#8)) 0 0 0 0 with fld := 0xFFFF8001#64 })
      (fun t => (t.raster, cursor t)) =
      some (bytesFrom 0 [1, 0, 0, 0, 0, 0, 0, 0, 0, 0, 0, 0, 0, 0, 0, 1], [0, 0, 0, 1]) := by decide

/-- P5, the length header. -/
theorem test_wfld64 :
    ended (exec .wfld64 { live (carrier 2 2 3 (List.replicate 12 0xFF#8)) 0 0 0 0 with fld := 1#64 })
      (fun t => (t.raster, cursor t)) =
      some (bytesFrom 0 [0xC0, 0xC0, 0xC0, 0xE0, 0xE0, 0xE0, 0xE0, 0xE0, 0xE0, 0xE0, 0xE0, 0xE0], [0, 1, 1, 5]) := by
  decide

/-- V11. -/
theorem test_rfld8 :
    ended (exec .rfld8 (live (carrier 4 2 3 [1, 0, 1, 0, 0, 1, 0, 1]) 0 0 0 0)) (fun t => (t.fld, cursor t)) =
      some (0xA5#64, [0, 2, 2, 0]) := by decide

/-- V14. -/
theorem test_rfld8_runs_out :
    ended (exec .rfld8 { live (carrier 1 1 1 [0xE0#8]) 0 0 0 5 with fld := 0x1234#64 })
      (fun t => (t.fld, cursor t, outcome t)) =
      some (0x1234#64, [0, 0, 0, 7], ⟨false, true, .failed, .capacityExhausted, 0x04#8⟩) := by decide

/-- V12's raster. -/
def v12 : List Byte :=
  [2, 2, 0, 0, 2, 2, 0, 3, 2, 2, 3, 0, 2, 2, 3, 3] ++ [0, 1, 0, 0, 0, 1, 0, 1, 0, 1, 1, 0, 0, 1, 1, 1] ++
  [1, 0, 0, 0, 1, 0, 0, 1, 1, 0, 1, 0, 1, 0, 1, 1]

/-- V12. -/
theorem test_rfld16 :
    ended (exec .rfld16 (live (carrier 4 4 3 v12) 0 0 0 0)) (fun t => (t.fld, cursor t)) =
      some (0x0123#64, [1, 1, 1, 0]) := by decide

/-- V12: the field that `WFLD 64` wrote. -/
theorem test_rfld64 :
    ended (exec .rfld64 (live (carrier 4 4 3 v12) 0 0 0 0)) (fun t => (t.fld, cursor t)) =
      some (0x0123456789ABCDEF#64, [1, 1, 1, 1]) := by decide

/-! ### The macro commands -/

/-- V21's carrier. -/
def v21 : List Byte := [0xC0, 0xA0, 0xC0, 0x00, 0xE0, 0xE0, 0x80, 0x60, 0xE0, 0xA0, 0xE0, 0xC0]

/-- V21: exactly the capacity. -/
theorem test_encb_exact :
    ended (exec .encb { carrier 2 2 3 (List.replicate 12 0#8) with
        len := 4#64, payload := bytesFrom 0 [0xDE, 0xAD, 0xBE, 0xEF] })
      (fun t => (t.raster, cursor t, outcome t)) =
      some (bytesFrom 0 v21, [0, 0, 0, 7], ⟨false, true, .complete, .ok, 0#8⟩) := by decide

/-- V23. -/
theorem test_encb_insufficient :
    ended (exec .encb { live (carrier 2 2 3 v21) 1 1 0 3 with len := 5#64 }) (fun t => (t.raster, cursor t, outcome t)) =
      some (bytesFrom 0 v21, [1, 1, 0, 3], ⟨false, false, .failed, .insufficientCapacity, 0x02#8⟩) := by decide

/-- V29. -/
theorem test_decb_body_runs_out :
    ended (exec .decb { carrier 2 2 3 (v21.set 3 0x20) with payload := bytesFrom 0 (List.replicate 6 0xEE#8) })
      (fun t => (t.payload, t.len, cursor t, outcome t)) =
      some (bytesFrom 0 [0xDE, 0xAD, 0xBE, 0xEF, 0xEE, 0xEE], 5#64, [0, 0, 0, 7], 
        ⟨false, true, .failed, .capacityExhausted, 0x04#8⟩) := by decide

/-- V27, on V21's dimensions: an all-zero raster. -/
theorem test_decb_ambiguous :
    ended (exec .decb (carrier 2 2 3 (List.replicate 12 0#8))) (fun t => (t.len, cursor t, outcome t)) =
      some (0#64, [0, 1, 1, 5], ⟨false, false, .complete, .ambiguousHeader, 0#8⟩) := by decide

/-- V31's carrier. -/
def v31 : List Byte := [0x00, 0x10, 0x08, 0x12, 0x00, 0x10, 0x18, 0x0C, 0x00, 0x08, 0x00, 0x04]

/-- V31. -/
theorem test_enci :
    ended (exec .enci { carrier 2 2 3 (List.replicate 12 0#8) with
        imgw := 1#16, imgh := 1#16, payload := bytesFrom 0 [0x12, 0x34, 0x56] })
      (fun t => (t.raster, cursor t, outcome t)) =
      some (bytesFrom 0 v31, [1, 0, 2, 4], ⟨false, false, .complete, .ok, 0#8⟩) := by decide

/-- V36. -/
theorem test_enci_payload_range :
    ended (exec .enci { carrier 10 10 3 [] with imgw := 1#16, imgh := 2#16, pbufSize := some 4 }) outcome =
      some ⟨false, false, .failed, .payloadRange, 0x40#8⟩ := by decide

/-- V31. -/
theorem test_deci :
    ended (exec .deci (carrier 2 2 3 v31)) (fun t => (t.payload, t.imgw, t.imgh, cursor t, outcome t)) =
      some (bytesFrom 0 [0x12, 0x34, 0x56], 1#16, 1#16, [1, 0, 2, 4], ⟨false, false, .complete, .ok, 0#8⟩) := by decide

/-- V32: a width of 0 is ambiguous, whatever the height. -/
theorem test_deci_width_zero :
    ended (exec .deci (carrier 2 2 3 [0, 0, 0, 0, 0, 4, 4, 4, 0, 0, 0, 0]))
      (fun t => (t.payload, t.imgw, t.imgh, cursor t, outcome t)) =
      some ([], 0#16, 7#16, [1, 0, 2, 2], ⟨false, false, .complete, .ambiguousHeader, 0#8⟩) := by decide

/-! ### Housekeeping, illegal words and the host's actions -/

/-- V40. -/
theorem test_clrf :
    ended (exec .clrf { State.reset with flog := 0xB0#8, session := .failed, status := .illegalCommand }) outcome =
      some ⟨false, false, .failed, .ok, 0#8⟩ := by decide

/-- V15, as a step: the word 0x43 with a live cursor. -/
theorem test_step_illegal_word :
    ended (step ((live (carrier 1 1 1 [0x25#8]) 0 0 0 3).withFetchWord 8 0x43)) (fun t => (t.raster, cursor t, outcome t)) =
      some ([(0, 0x25#8)], [0, 0, 0, 3], ⟨false, false, .failed, .illegalCommand, 0x80#8⟩) := by decide

/-- V6, as the first step after reset. -/
theorem test_step_after_reset :
    ended (step (State.reset.withFetchWord 8 0x20)) outcome =
      some ⟨false, false, .failed, .noCursor, 0x10#8⟩ := by decide

/-- V8: writing the value already there ends the raw session. -/
theorem test_host_write_dimension :
    ended (step { live (carrier 2 2 3 []) 0 0 0 0 with input := [.regWrite 0x00#8 2#64] }) (fun t => (t.w, t.cvalid)) =
      some (2#16, false) := by decide

/-- P1's end: `CSTAT` reads 0x05. -/
theorem test_host_read_cstat :
    hostRead 0x0D#8 { live State.reset 0 0 1 1 with bitq := true } = 5#64 ∧ hostRead 0x05#8 State.reset = 0#64 := by
  decide

/-! ### Witnesses: for each statement with hypotheses, states that meet all of them together -/

/-- Every clause at the smallest illegal word, the words beside the legal ones, and the largest. -/
theorem witness_illegal_words :
    ∀ word ∈ [0x00#8, 0x0F#8, 0x11#8, 0x1F#8, 0x22#8, 0x43#8, 0x53#8, 0x9F#8, 0xC1#8, 0xFF#8], word ∉ legalWords := by
  decide

theorem witness_StepRunsDecodedCommand :
    ({ State.reset with input := [.command 0x21#8, .reset] } : State).input = .command 0x21#8 :: [.reset] ∧
    decode 0x21#8 = .legal (.wbit true) ∧ (Instr.wbit true).wellFormed = true := by decide

/-- Each kind of action at the head of an input, and both sides of a space's end. -/
theorem witness_StepPerformsHostActions :
    (State.reset.input = []) ∧
    (∀ a ∈ [HostAction.regWrite 0x00#8 1#64, .regRead 0x11#8, .memWrite .raster 3 0xFF#64, .memWrite .raster 4 0xFF#64,
        .memRead .payload 0, .reset],
      ({ State.reset with input := [a] } : State).input = a :: []) ∧
    inSpace (some 4) 3 = true ∧ inSpace (some 4) 4 = false := by decide

theorem witness_RegisterPortReadsRegisters :
    ∀ n ∈ [0x05#8, 0x07#8, 0x0E#8, 0x0F#8, 0x13#8, 0x17#8, 0x1C#8, 0xFF#8],
      0x05 ≤ n.toNat ∧ n.toNat ≤ 0x07 ∨ n.toNat = 0x0E ∨ n.toNat = 0x0F ∨ 0x13 ≤ n.toNat ∧ n.toNat ≤ 0x17 ∨
        0x1C ≤ n.toNat := by decide

/-- A read-only register at each end of its block, and a number that holds none. -/
theorem witness_RegisterPortIgnoresOtherWrites :
    ∀ n ∈ [0x05#8, 0x08#8, 0x0D#8, 0x12#8, 0x1C#8, 0xFF#8],
      n ∉ [0x00#8, 0x01#8, 0x02#8, 0x03#8, 0x04#8, 0x18#8, 0x19#8, 0x1A#8, 0x1B#8] := by decide

theorem witness_HostMemoryWriteStoresOneByte :
    inSpace (sizeOfSpace .payload { State.reset with pbufSize := some 4 }) 3 = true ∧
    inSpace (sizeOfSpace .payload { State.reset with pbufSize := some 4 }) 4 = false ∧
    inSpace (sizeOfSpace .raster State.reset) (2 ^ 40) = true := by decide

/-! The carriers of the witnesses: `row n` has `n` cells, `8 * n` positions. -/

/-- A carrier of `w` cells, all of one value, that fills the raster space to its last byte. -/
def row (w : Dim) (b : Byte) : State :=
  { carrier w 1 1 (List.replicate w.toNat b) with rasterSize := some w.toNat }

theorem row_legal {w : Dim} (hw : 1 ≤ w.toNat) (b : Byte) : LegalConfig (row w b) :=
  ⟨hw, Nat.le_refl 1, Nat.le_refl 1, fun m h => by
    cases h
    show w.toNat * 1 * 1 ≤ w.toNat
    omega⟩

theorem fits_unbounded {s : State} (h : s.pbufSize = none) (n : Nat) : FitsPayload s n :=
  fun m hm => by rw [h] at hm; cases hm

/-- `CinitOpensSession`, and of every other statement that asks for a legal configuration. -/
theorem witness_CinitOpensSession : LegalConfig (row 1 0) ∧ LegalConfig (row 8 0) := ⟨row_legal (by decide) 0, row_legal (by decide) 0⟩

/-- Each way to be illegal: a zero dimension, and a product one above the raster space. -/
theorem witness_IllegalConfigurationIsRefused :
    ¬ LegalConfig { row 1 0 with w := 0 } ∧ ¬ LegalConfig { row 1 0 with h := 0 } ∧ ¬ LegalConfig { row 1 0 with c := 0 } ∧
    ¬ LegalConfig { row 8 0 with rasterSize := some 7 } :=
  ⟨fun h => absurd h.1 (by decide), fun h => absurd h.2.1 (by decide), fun h => absurd h.2.2.1 (by decide),
    fun h => absurd (h.2.2.2 7 rfl) (by decide)⟩

/-- A live cursor over one cell at plane `p`: position `p`. -/
def unit (p : BitVec 3) : State := live (row 1 0xA5) 0 0 0 p

/-- The cursor of `unit` after its eighth bit operation. -/
def unitSpent : State := { unit 7 with exh := true }

theorem unit_inv (p : BitVec 3) : Inv (unit p) :=
  ⟨fun _ => ⟨by decide +revert, by decide +revert, by decide +revert, by decide +revert⟩, nofun, .inl rfl, fun _ => rfl, by decide +revert,
    ⟨by decide +revert, by decide +revert⟩, ⟨by decide +revert, by decide +revert⟩⟩

theorem unitSpent_inv : Inv unitSpent :=
  ⟨fun _ => ⟨by decide, by decide, by decide, by decide⟩, fun _ => ⟨rfl, rfl, rfl, rfl⟩, .inl rfl, fun _ => rfl,
    by decide, ⟨by decide, by decide⟩, ⟨by decide, by decide⟩⟩

/-- `WbitWritesOneBit`, `RbitReadsOneBit`, `CursorCoordinatesFollowPosition` at the first and the last position. -/
theorem witness_bit_commands :
    (Inv (unit 0) ∧ (unit 0).cvalid = true ∧ (unit 0).exh = false ∧ pos (unit 0) = 0) ∧
    (Inv (unit 7) ∧ (unit 7).cvalid = true ∧ (unit 7).exh = false ∧ pos (unit 7) = 7) :=
  ⟨⟨unit_inv 0, rfl, rfl, by decide⟩, ⟨unit_inv 7, rfl, rfl, by decide⟩⟩

theorem witness_BitCommandsFault :
    State.reset.cvalid = false ∧ unitSpent.cvalid = true ∧ unitSpent.exh = true := by decide

/-- A live cursor at the start of a carrier of `w` cells. -/
def start (w : Dim) : State := live (row w 0xA5) 0 0 0 0

theorem start2_inv : Inv (start 2) :=
  ⟨fun _ => ⟨by decide, by decide, by decide, by decide⟩, nofun, .inl rfl, fun _ => rfl, by decide,
    ⟨by decide, by decide⟩, ⟨by decide, by decide⟩⟩

theorem start8_inv : Inv (start 8) :=
  ⟨fun _ => ⟨by decide, by decide, by decide, by decide⟩, nofun, .inl rfl, fun _ => rfl, by decide,
    ⟨by decide, by decide⟩, ⟨by decide, by decide⟩⟩

/-- `WfldWritesField`, `RfldReadsField`: each width with exactly as many positions as it needs. -/
theorem witness_fields :
    (Inv (unit 0) ∧ (unit 0).cvalid = true ∧ pos (unit 0) + 8 = capacity (unit 0)) ∧
    (Inv (start 2) ∧ (start 2).cvalid = true ∧ pos (start 2) + 16 = capacity (start 2)) ∧
    (Inv (start 8) ∧ (start 8).cvalid = true ∧ pos (start 8) + 64 = capacity (start 8)) :=
  ⟨⟨unit_inv 0, rfl, by decide⟩, ⟨start2_inv, rfl, by decide⟩, ⟨start8_inv, rfl, by decide⟩⟩

/-- `WfldRunsOutPartWay`, `RfldRunsOutPartWay`: one position short, and no position left. -/
theorem witness_fields_run_out :
    (Inv (unit 1) ∧ (unit 1).cvalid = true ∧ capacity (unit 1) + 1 = pos (unit 1) + 8) ∧
    (Inv unitSpent ∧ unitSpent.cvalid = true ∧ capacity unitSpent < pos unitSpent + 8) ∧
    (Inv (start 2) ∧ (start 2).cvalid = true ∧ capacity (start 2) < pos (start 2) + 64) :=
  ⟨⟨unit_inv 1, rfl, by decide⟩, ⟨unitSpent_inv, rfl, by decide⟩, ⟨start2_inv, rfl, by decide⟩⟩

theorem witness_ResetSetsEveryRegister : ∃ s t : State, s ≠ State.reset ∧ t = resetEvent s :=
  ⟨unit 0, _, fun h => absurd (congrArg State.cvalid h) (by decide), rfl⟩

theorem witness_CommandsAfterReset :
    Instr.rfld64 ∈ [Instr.wbit false, .wbit true, .rbit, .wfld8, .wfld16, .wfld64, .rfld8, .rfld16, .rfld64] ∧
    Instr.deci ∈ [Instr.cinit, .encb, .decb, .enci, .deci] := by decide

theorem witness_FieldCommandsNeedCursor : State.reset.cvalid = false := rfl

/-- The state a command leaves, where the test knows that it leaves one. -/
def left (i : Instr) (s : State) : State :=
  match exec i s with
  | .next t => t
  | .fault _ => s
  | .refused _ => s

theorem exec_left {i : Instr} {s : State} (h : (ended (exec i s) fun _ => ()).isSome = true) :
    exec i s = .next (left i s) := by
  unfold left
  cases he : exec i s <;> simp_all [ended]

/-- Each width, in a carrier that it fills. -/
theorem witness_FieldRoundTrip :
    (∃ s a b c, exec .cinit s = .next a ∧ a.status = .ok ∧ exec .wfld8 a = .next b ∧ b.status = .ok ∧
      exec .cinit b = .next c) ∧
    (∃ s a b c, exec .cinit s = .next a ∧ a.status = .ok ∧ exec .wfld16 a = .next b ∧ b.status = .ok ∧
      exec .cinit b = .next c) ∧
    ∃ s a b c, exec .cinit s = .next a ∧ a.status = .ok ∧ exec .wfld64 a = .next b ∧ b.status = .ok ∧
      exec .cinit b = .next c :=
  ⟨⟨{ row 1 0 with fld := 0xA5 }, _, _, _, exec_left (by decide), by decide, exec_left (by decide), by decide,
      exec_left (by decide)⟩,
    ⟨{ row 2 0 with fld := 0xA55A }, _, _, _, exec_left (by decide), by decide, exec_left (by decide), by decide,
      exec_left (by decide)⟩,
    { row 8 0 with fld := 0x8000000000000001 }, _, _, _, exec_left (by decide), by decide, exec_left (by decide),
      by decide, exec_left (by decide)⟩

/-- `EncbEmbedsFrame`: the empty payload in exactly 64 positions, and one byte in a larger carrier. -/
theorem witness_EncbEmbedsFrame :
    (LegalConfig (row 8 0) ∧ FitsPayload (row 8 0) (row 8 0).len.toNat ∧
      (row 8 0).len.toNat * 8 + 64 = capacity (row 8 0)) ∧
    ∃ s : State, LegalConfig s ∧ FitsPayload s s.len.toNat ∧ s.len = 1#64 ∧ s.len.toNat * 8 + 64 ≤ capacity s :=
  ⟨⟨row_legal (by decide) 0, fits_unbounded rfl _, by decide⟩,
    { row 8 0 with w := 9, rasterSize := none, len := 1, pbufSize := some 1 },
    ⟨by decide, by decide, by decide, nofun⟩, fun m h => by cases h; decide, rfl, by decide⟩

/-- One byte above the payload space, and one byte above the capacity. -/
theorem witness_EncbPrechecks :
    (∃ s : State, LegalConfig s ∧ ¬ FitsPayload s s.len.toNat) ∧
    ∃ s : State, LegalConfig s ∧ FitsPayload s s.len.toNat ∧ capacity s + 8 = s.len.toNat * 8 + 64 :=
  ⟨⟨{ row 8 0 with len := 5, pbufSize := some 4 }, row_legal (by decide) 0, fun h => absurd (h 4 rfl) (by decide)⟩,
    { row 8 0 with len := 1 }, row_legal (by decide) 0, fits_unbounded rfl _, by decide⟩

/-! Rasters for the decoders. -/

/-- A legal carrier with these bytes; its size is that of the bytes. -/
def bits (bytes : List Byte) : State := { carrier (BitVec.ofNat 16 bytes.length) 1 1 bytes with rasterSize := none }

/-- Nine cells that hold a byte frame of length 1: position 63 is bit 7 of byte 0. -/
def frame1 : State := bits [0x80, 0, 0, 0, 0, 0, 0, 0, 0]

/-- Eight cells that hold the header 1 and nothing more: position 63 is bit 7 of byte 7. -/
def header1 : State := bits [0, 0, 0, 0, 0, 0, 0, 0x80]

theorem frame1_legal : LegalConfig frame1 := ⟨by decide, by decide, by decide, nofun⟩

theorem header1_legal : LegalConfig header1 := ⟨by decide, by decide, by decide, nofun⟩

theorem witness_DecbReturnsPayload :
    LegalConfig frame1 ∧ 1 = streamField frame1 0 64 ∧ 0 < 1 ∧ 1 < frame1.lenlim.toNat ∧ FitsPayload frame1 1 ∧
      64 + 8 * 1 = capacity frame1 :=
  ⟨frame1_legal, by decide +kernel, by decide, by decide, fits_unbounded rfl 1, by decide⟩

/-- Both ends of the filter: a length of 0, and a length equal to `LENLIM`. -/
theorem witness_DecbSignalsAmbiguousHeader :
    (LegalConfig (row 8 0) ∧ 0 = streamField (row 8 0) 0 64 ∧ 64 = capacity (row 8 0)) ∧
    ∃ s : State, LegalConfig s ∧ 1 = streamField s 0 64 ∧ ¬ (0 < 1 ∧ 1 < s.lenlim.toNat) ∧ 64 ≤ capacity s :=
  ⟨⟨row_legal (by decide) 0, by decide +kernel, by decide⟩,
    { header1 with lenlim := 1 }, header1_legal, by decide +kernel, by decide, by decide⟩

/-- `DecbHeaderRunsOut` and `DeciHeaderRunsOut`: carriers one cell short of a header. -/
theorem witness_headers_run_out :
    (∃ s : State, LegalConfig s ∧ capacity s + 8 = 64) ∧ ∃ s : State, LegalConfig s ∧ capacity s + 8 = 32 :=
  ⟨⟨{ row 8 0 with w := 7, rasterSize := none }, ⟨by decide, by decide, by decide, nofun⟩, by decide⟩,
    { row 8 0 with w := 3, rasterSize := none }, ⟨by decide, by decide, by decide, nofun⟩, by decide⟩

theorem witness_DecbPayloadRange :
    ∃ s : State, LegalConfig s ∧ 1 = streamField s 0 64 ∧ 0 < 1 ∧ 1 < s.lenlim.toNat ∧ ¬ FitsPayload s 1 ∧
      64 = capacity s :=
  ⟨{ header1 with pbufSize := some 0 }, header1_legal, by decide, by decide, by decide,
    fun h => absurd (h 0 rfl) (by decide), by decide⟩

theorem witness_DecbBodyRunsOut :
    LegalConfig header1 ∧ 1 = streamField header1 0 64 ∧ 0 < 1 ∧ 1 < header1.lenlim.toNat ∧ FitsPayload header1 1 ∧
      64 = capacity header1 ∧ capacity header1 < 64 + 8 * 1 :=
  ⟨header1_legal, by decide +kernel, by decide, by decide, fits_unbounded rfl 1, by decide, by decide⟩

/-- The empty grid in exactly 32 positions, and a grid of one pixel in exactly 56. -/
theorem witness_EnciEmbedsFrame :
    (LegalConfig (row 4 0) ∧ FitsPayload (row 4 0) 0 ∧ 0 = (row 4 0).imgw.toNat * (row 4 0).imgh.toNat * 3 ∧
      0 * 8 + 32 = capacity (row 4 0)) ∧
    ∃ s : State, LegalConfig s ∧ FitsPayload s 3 ∧ 3 = s.imgw.toNat * s.imgh.toNat * 3 ∧ 3 * 8 + 32 = capacity s :=
  ⟨⟨row_legal (by decide) 0, fits_unbounded rfl 0, by decide, by decide⟩,
    { row 8 0 with w := 7, rasterSize := none, imgw := 1, imgh := 1, pbufSize := some 3 },
    ⟨by decide, by decide, by decide, nofun⟩, fun m h => by cases h; decide, by decide, by decide⟩

theorem witness_EnciPrechecks :
    (∃ s : State, 3 = s.imgw.toNat * s.imgh.toNat * 3 ∧ LegalConfig s ∧ ¬ FitsPayload s 3) ∧
    ∃ s : State, 3 = s.imgw.toNat * s.imgh.toNat * 3 ∧ LegalConfig s ∧ FitsPayload s 3 ∧ capacity s < 3 * 8 + 32 :=
  ⟨⟨{ row 8 0 with imgw := 1, imgh := 1, pbufSize := some 2 }, by decide, row_legal (by decide) 0,
      fun h => absurd (h 2 rfl) (by decide)⟩,
    { row 4 0 with imgw := 1, imgh := 1 }, by decide, row_legal (by decide) 0, fits_unbounded rfl 3, by decide⟩

/-- Four cells with the header `W1 = 1`, `H1 = 0`: position 15 is bit 3 of byte 3. -/
def empty1 : State := bits [0, 0, 0, 0x08]

/-- Seven cells with the header `W1 = 1`, `H1 = 1`: positions 15 and 31 are bit 2 of byte 1, bit 4 of byte 3. -/
def pixel1 : State := bits [0, 0x04, 0, 0x10, 0, 0, 0]

/-- Four cells with the header `W1 = 1`, `H1 = 1`: positions 15 and 31 are bits 3 and 7 of byte 3. -/
def pixelHeader : State := bits [0, 0, 0, 0x88]

theorem pixelHeader_legal : LegalConfig pixelHeader := ⟨by decide, by decide, by decide, nofun⟩

/-- The empty grid of width 1, and one pixel in exactly 56 positions. -/
theorem witness_DeciReturnsGrid :
    (LegalConfig empty1 ∧ 1 = streamField empty1 0 16 ∧ 0 = streamField empty1 16 16 ∧
      ¬ (1 = 0 ∨ empty1.wlim.toNat < 1) ∧ FitsPayload empty1 (1 * 0 * 3) ∧ 32 + 8 * (1 * 0 * 3) = capacity empty1) ∧
    (LegalConfig pixel1 ∧ 1 = streamField pixel1 0 16 ∧ 1 = streamField pixel1 16 16 ∧
      ¬ (1 = 0 ∨ pixel1.wlim.toNat < 1) ∧ FitsPayload pixel1 (1 * 1 * 3) ∧ 32 + 8 * (1 * 1 * 3) = capacity pixel1) :=
  ⟨⟨⟨by decide, by decide, by decide, nofun⟩, by decide, by decide, by decide, fits_unbounded rfl _, by decide⟩,
    ⟨⟨by decide, by decide, by decide, nofun⟩, by decide, by decide, by decide, fits_unbounded rfl _, by decide⟩⟩

/-- Both ends of the filter: a width of 0, and a width one above `WLIM`. -/
theorem witness_DeciSignalsAmbiguousHeader :
    (LegalConfig (row 4 0) ∧ 0 = streamField (row 4 0) 0 16 ∧ 0 = streamField (row 4 0) 16 16 ∧ 32 = capacity (row 4 0)) ∧
    ∃ s : State, LegalConfig s ∧ 1 = streamField s 0 16 ∧ 1 = streamField s 16 16 ∧ s.wlim.toNat < 1 ∧ 32 = capacity s :=
  ⟨⟨row_legal (by decide) 0, by decide, by decide, by decide⟩,
    { pixelHeader with wlim := 0 }, pixelHeader_legal, by decide, by decide, by decide, by decide⟩

theorem witness_DeciPayloadRange :
    ∃ s : State, LegalConfig s ∧ 1 = streamField s 0 16 ∧ 1 = streamField s 16 16 ∧ ¬ (1 = 0 ∨ s.wlim.toNat < 1) ∧
      ¬ FitsPayload s (1 * 1 * 3) ∧ 32 = capacity s :=
  ⟨{ pixelHeader with pbufSize := some 2 }, pixelHeader_legal, by decide, by decide, by decide,
    fun h => absurd (h 2 rfl) (by decide), by decide⟩

theorem witness_DeciBodyRunsOut :
    LegalConfig pixelHeader ∧ 1 = streamField pixelHeader 0 16 ∧ 1 = streamField pixelHeader 16 16 ∧
      ¬ (1 = 0 ∨ pixelHeader.wlim.toNat < 1) ∧ FitsPayload pixelHeader (1 * 1 * 3) ∧ 32 = capacity pixelHeader ∧
      capacity pixelHeader < 32 + 8 * (1 * 1 * 3) :=
  ⟨pixelHeader_legal, by decide, by decide, by decide, fits_unbounded rfl _, by decide, by decide⟩

/-- `BytesRoundTrip`: a length of 1, and the empty payload; `t' = t` meets the rest. `OpaqueFrameIsNoImage` and
`FailingEncodeLeavesCarrier` ask for no more. -/
theorem witness_BytesRoundTrip :
    (∃ s t : State, exec .encb s = .next t ∧ t.status = .ok ∧ 0 < s.len.toNat ∧ s.len.toNat < t.lenlim.toNat) ∧
    ∃ s t : State, exec .encb s = .next t ∧ t.status = .ok ∧ s.len.toNat = 0 :=
  ⟨⟨{ frame1 with len := 1, payload := [(0, 0xA7)] }, _, exec_left (by decide), by decide, by decide, by decide⟩,
    row 8 0xFF, _, exec_left (by decide), by decide, by decide⟩

/-- `ImageRoundTrip`: widths 1 and 0. -/
theorem witness_ImageRoundTrip :
    (∃ s t : State, exec .enci s = .next t ∧ t.status = .ok ∧ 1 ≤ s.imgw.toNat ∧ s.imgw.toNat ≤ t.wlim.toNat) ∧
    ∃ s t : State, exec .enci s = .next t ∧ t.status = .ok ∧ s.imgw.toNat = 0 :=
  ⟨⟨{ pixel1 with imgw := 1, imgh := 1, payload := [(0, 0x12), (1, 0x34), (2, 0x56)] }, _, exec_left (by decide),
      by decide, by decide, by decide⟩,
    row 4 0xFF, _, exec_left (by decide), by decide, by decide⟩

theorem witness_OpaqueFrameIsNoImage :
    ∃ s t : State, exec .encb s = .next t ∧ t.status = .ok ∧ s.len.toNat < 2 ^ 32 :=
  ⟨row 8 0xFF, _, exec_left (by decide), by decide, by decide⟩

/-- A carrier of exactly 64 positions, with `LENLIM` at `2^48` and one above it, and a carrier of 32 positions;
`t'` is `t`, but for `LENLIM` in the second clause. -/
theorem witness_ImageFrameIsNoOpaquePayload :
    (∃ s t : State, exec .enci s = .next t ∧ t.status = .ok ∧ 1 ≤ s.imgw.toNat ∧ 64 = capacity t ∧
      t.lenlim.toNat = 2 ^ 48) ∧
    (∃ s t : State, exec .enci s = .next t ∧ t.status = .ok ∧ 1 ≤ s.imgw.toNat ∧
      64 = capacity { t with lenlim := 0x1000000000001 } ∧ 2 ^ 48 < (0x1000000000001#64).toNat) ∧
    ∃ s t : State, exec .enci s = .next t ∧ t.status = .ok ∧ 1 ≤ s.imgw.toNat ∧ capacity t = 32 :=
  ⟨⟨{ row 8 0 with imgw := 1, lenlim := 0x1000000000000 }, _, exec_left (by decide), by decide, by decide, by decide,
      by decide⟩,
    ⟨{ row 8 0 with imgw := 1 }, _, exec_left (by decide), by decide, by decide, by decide, by decide⟩,
    { row 4 0 with imgw := 1 }, _, exec_left (by decide), by decide, by decide, by decide⟩

/-- `StepKeepsInvariant`: a step of a live session that meets the invariant. -/
theorem witness_StepKeepsInvariant :
    ∃ s t : State, Inv s ∧ step s = .next t ∧ s.cvalid = true ∧ t.exh = true :=
  ⟨{ unit 7 with input := [.command 0x30#8] }, left .rbit (unit 7),
    ⟨fun _ => ⟨by decide, by decide, by decide, by decide⟩, nofun, .inl rfl, fun _ => rfl, by decide,
      ⟨by decide, by decide⟩, ⟨by decide, by decide⟩⟩,
    (exec_left (i := .rbit) (s := unit 7) (by decide) : exec .rbit (unit 7) = _), rfl, by decide⟩

/-- `IssueAlwaysCompletes`, `OnlyOutsideHostAccessesStop`: a state that meets the invariant, and one whose step is
refused. -/
theorem witness_OnlyOutsideHostAccessesStop :
    ∃ s : State, Inv s ∧ step s = .refused (.hostAddress .raster) :=
  ⟨{ unit 0 with input := [.memRead .raster 1] },
    ⟨fun _ => ⟨by decide, by decide, by decide, by decide⟩, nofun, .inl rfl, fun _ => rfl, by decide,
      ⟨by decide, by decide⟩, ⟨by decide, by decide⟩⟩, by rfl⟩

/-- The statements over every command that ends, each clause of theirs: commands that end with `OK`, with
`AmbiguousHeader`, and with a fatal cause before and after the memories are reached. -/
theorem witness_command_ends :
    (∃ s t : State, exec (.wbit true) s = .next t ∧ t.status = .ok) ∧
    (∃ s t : State, exec .rfld8 s = .next t ∧ t.status = .ok) ∧
    (∃ s t : State, exec .deci s = .next t ∧ t.status = .ambiguousHeader) ∧
    (∃ s t : State, exec .decb s = .next t ∧ t.status = .capacityExhausted) ∧
    (∃ s t : State, exec .encb s = .next t ∧ t.status = .insufficientCapacity) ∧
    (∃ s t : State, exec .cinit s = .next t ∧ t.status = .badConfig) ∧
    (∃ s t : State, exec .enci s = .next t ∧ t.status = .payloadRange) ∧
    ∃ s t : State, exec .wfld64 s = .next t ∧ t.status = .noCursor :=
  ⟨⟨unit 7, _, exec_left (by decide), by decide⟩, ⟨unit 0, _, exec_left (by decide), by decide⟩,
    ⟨row 4 0, _, exec_left (by decide), by decide⟩, ⟨header1, _, exec_left (by decide), by decide⟩,
    ⟨row 2 0, _, exec_left (by decide), by decide⟩, ⟨State.reset, _, exec_left (by decide), by decide⟩,
    ⟨{ row 8 0 with imgw := 1, imgh := 1, pbufSize := some 2 }, _, exec_left (by decide), by decide⟩,
    ⟨row 8 0, _, exec_left (by decide), by decide⟩⟩

end Sys2Proof.Tests
end

section
/-! What a command may leave alone, how it may end, and what it keeps of `Inv` while it runs; from these the
statements of spec/10_state.md about commands follow. -/

namespace Sys2Proof.Machine

/-! ### The registers each command leaves alone (R11 to R13, R17, R21) -/

/-- `t` holds what `s` holds in every register that only the host writes, in the sizes and the input, and in
each data register that `i` does not write. -/
def KeepsRegisters (i : Instr) (s t : State) : Prop :=
  (t.w = s.w ∧ t.h = s.h ∧ t.c = s.c ∧ t.lenlim = s.lenlim ∧ t.wlim = s.wlim ∧
    t.rasterSize = s.rasterSize ∧ t.pbufSize = s.pbufSize ∧ t.input = s.input) ∧
  (i ≠ .rbit → t.bitq = s.bitq) ∧
  (readWidth i = 0 → t.fld = s.fld) ∧
  (i ≠ .decb → t.len = s.len) ∧
  (i ≠ .deci → t.imgw = s.imgw ∧ t.imgh = s.imgh)

theorem KeepsRegisters.refl (i : Instr) (s : State) : KeepsRegisters i s s :=
  ⟨⟨rfl, rfl, rfl, rfl, rfl, rfl, rfl, rfl⟩, fun _ => rfl, fun _ => rfl, fun _ => rfl, fun _ => ⟨rfl, rfl⟩⟩

/-- Every update in the pseudocode of `i` writes none of those registers. -/
theorem keptBy_keepsRegisters (i : Instr) (s : State) : KeptBy i (KeepsRegisters i s) where
  advance _ _ h := by simpa [KeepsRegisters] using h
  raster _ _ _ _ _ h := h
  payload _ _ _ _ _ h := h
  cinit _ _ _ h := h
  macroOpen _ _ _ h := h
  macroSession _ _ _ h := h
  macroClose _ _ h := h
  bitq hi _ _ := fun ⟨hcfg, _, hfld, hlen, himg⟩ => ⟨hcfg, fun hn => absurd hi hn, hfld, hlen, himg⟩
  fld hi _ _ := fun ⟨hcfg, hbitq, _, hlen, himg⟩ => ⟨hcfg, hbitq, fun hn => absurd hn hi, hlen, himg⟩
  len hi _ _ := fun ⟨hcfg, hbitq, hfld, _, himg⟩ => ⟨hcfg, hbitq, hfld, fun hn => absurd hi hn, himg⟩
  image hi _ _ _ := fun ⟨hcfg, hbitq, hfld, hlen, _⟩ => ⟨hcfg, hbitq, hfld, hlen, fun hn => absurd hi hn⟩
  log _ _ h := h

theorem exec_keepsRegisters {i : Instr} {s t : State} (h : exec i s = .next t) : KeepsRegisters i s t := by
  obtain ⟨u, hu, rfl | ⟨k, rfl⟩ | rfl⟩ := exec_keeps h (.refl i s) (keptBy_keepsRegisters i s)
  · exact hu
  · exact hu
  · exact hu

/-- The field reads are the three commands with a width. -/
theorem readWidth_eq_zero {i : Instr} (h : i ∉ [Instr.rfld8, .rfld16, .rfld64]) : readWidth i = 0 := by
  cases i
  case rfld8 | rfld16 | rfld64 => exact absurd (by decide) h
  all_goals rfl

/-! ### How a command ends (R18 to R20, R143, R146) -/

/-- `STATE` and `CVALID` as `i` leaves them when it succeeds (R86, R111, R112, R121, R122). -/
def sessionAfter (i : Instr) (s : State) : Session × Bool :=
  if i = .cinit then (.idle, true)
  else if i ∈ [Instr.encb, .decb, .enci, .deci] then (.complete, false)
  else (s.session, s.cvalid)

/-- `FLOG` as `i` leaves it when it succeeds (R20, R130). -/
def logAfter (i : Instr) (s : State) : BitVec 8 := if i = .clrf then 0#8 else s.flog

/-- What the pseudocode of `i`, begun in `s`, may end in: its outcome, and the log and session fields of its
last state. -/
structure CommandEnd (i : Instr) (s : State) (o : Status) (u : State) : Prop where
  legal : o ≠ .illegalCommand
  ambiguous : o = .ambiguousHeader → i = .decb ∨ i = .deci
  ok : o = .ok → u.flog = logAfter i s ∧ (u.session, u.cvalid) = sessionAfter i s
  not_ok : o ≠ .ok → u.flog = s.flog

/-- The log is as it was. -/
def SameLog (s u : State) : Prop := u.flog = s.flog

/-- The log, `STATE` and `CVALID` are as they were. -/
def SameSession (s u : State) : Prop := u.flog = s.flog ∧ (u.session, u.cvalid) = (s.session, s.cvalid)

theorem SameLog.stepCursor {s u : State} (h : SameLog s u) : SameLog s (stepCursor u) := by
  simpa [SameLog] using h

theorem SameLog.setSession {s u : State} (h : SameLog s u) (v : Session) : SameLog s (setSession v u) := h

theorem SameSession.stepCursor {s u : State} (h : SameSession s u) : SameSession s (stepCursor u) := by
  simpa [SameSession] using h

section
variable {i : Instr} {s : State} {α : Type} {next : α → State → Flow Unit}

theorem CommandEnd.raised {k : Cause} {u : State} (hk : k ≠ .illegalCommand) (h : SameLog s u) :
    CommandEnd i s (causeStatus k) u where
  legal := by cases k <;> simp [causeStatus] at hk ⊢
  ambiguous := by cases k <;> exact nofun
  ok := by cases k <;> exact nofun
  not_ok _ := h

/-- `if cond: raise Cause` before the rest of a command. -/
theorem raiseIf_bind_commandEnd {b : Bool} {k : Cause} {u : State} {next : Unit → State → Flow Unit}
    (hk : k ≠ .illegalCommand) (h : SameLog s u) (hn : (next () u).Ends (CommandEnd i s)) :
    ((raiseIf b k u).bind next).Ends (CommandEnd i s) := by
  unfold raiseIf
  split
  · exact .raised hk h
  · exact hn

/-- A part of a command that works bit by bit can only run out of positions. -/
theorem BitEnd.commandEnd {P : State → Prop} (hP : ∀ u, P u → SameLog s u) {o : Status} {u : State}
    (ho : o ≠ .ok) (h : BitEnd P o u) : CommandEnd i s o u := by
  obtain ⟨hu, rfl | rfl⟩ := h
  · exact absurd rfl ho
  · exact .raised (k := .capacityExhausted) nofun (hP u hu)

/-- Such a part before the rest of a command. -/
theorem Flow.Ends.bind_commandEnd {P : State → Prop} {x : Flow α} (hx : x.Ends (BitEnd P))
    (hP : ∀ u, P u → SameLog s u) (hn : ∀ a u, P u → (next a u).Ends (CommandEnd i s)) :
    (x.bind next).Ends (CommandEnd i s) :=
  hx.bind_to (fun _ _ ho h => h.commandEnd hP ho) fun a u h => hn a u h.1

end

/-! ### Each command's ends -/

section
variable {i : Instr} {s : State}

section
variable (hi : logAfter i s = s.flog ∧ sessionAfter i s = (s.session, s.cvalid))
include hi

/-- A command that is to leave the log and the session fields succeeds with them as they were. -/
theorem SameSession.commandEnd {u : State} (h : SameSession s u) : CommandEnd i s .ok u :=
  ⟨nofun, nofun, fun _ => ⟨h.1.trans hi.1.symm, h.2.trans hi.2.symm⟩, fun ho => absurd rfl ho⟩

theorem Flow.Ends.commandEnd {x : Flow Unit} (hx : x.Ends (BitEnd (SameSession s))) : x.Ends (CommandEnd i s) :=
  hx.imp fun o u h => by
    by_cases ho : o = .ok
    · exact ho ▸ h.1.commandEnd hi
    · exact h.commandEnd (fun _ hu => hu.1) ho

theorem writeField_commandEnd (n : Nat) : (writeField n s).Ends (CommandEnd i s) :=
  raiseIf_bind_commandEnd nofun rfl <|
    (putField_ends (fun _ _ h => h.stepCursor) (fun _ _ _ _ h => h) ⟨rfl, rfl⟩ _).commandEnd hi

theorem readField_commandEnd (n : Nat) : (readField n s).Ends (CommandEnd i s) :=
  raiseIf_bind_commandEnd nofun rfl <|
    (getField_ends (P := SameSession s) (fun _ _ h => h.stepCursor) ⟨rfl, rfl⟩).bind_commandEnd (fun _ h => h.1)
      fun _ _ (h : SameSession s _) => SameSession.commandEnd hi h

end

/-- A codec command that succeeds leaves the log, `COMPLETE` and no cursor (R111, R112, R121, R122). -/
theorem codec_after (hi : i ∈ [Instr.encb, .decb, .enci, .deci]) (s : State) :
    logAfter i s = s.flog ∧ sessionAfter i s = (.complete, false) := by
  simp only [List.mem_cons, List.not_mem_nil, or_false] at hi
  obtain rfl | rfl | rfl | rfl := hi <;> exact ⟨rfl, rfl⟩

/-- The body of a codec command, and the close of its session. -/
theorem Flow.Ends.bind_closeSession (hi : i ∈ [Instr.encb, .decb, .enci, .deci]) {x : Flow Unit}
    (hx : x.Ends (BitEnd (SameLog s))) :
    (x.bind fun _ u => .ok () (closeSession u)).Ends (CommandEnd i s) := by
  obtain ⟨hlog, hsession⟩ := codec_after hi s
  exact hx.bind_commandEnd (fun _ => id) fun _ u hu =>
    ⟨nofun, nofun, fun _ => ⟨Eq.trans hu hlog.symm, hsession.symm⟩, fun ho => absurd rfl ho⟩

/-- A header that is not plausible ends a decoder. -/
theorem SameLog.commandEnd_ambiguous (hi : i = .decb ∨ i = .deci) {u : State} (h : SameLog s u) :
    CommandEnd i s .ambiguousHeader u :=
  ⟨nofun, fun _ => hi, nofun, fun _ => h⟩

theorem putField_sameLog (n v : Nat) {u : State} (h : SameLog s u) : (putField n v u).Ends (BitEnd (SameLog s)) :=
  putField_ends (fun _ _ hw => hw.stepCursor) (fun _ _ _ _ hw => hw) h v

theorem getField_sameLog (n : Nat) {u : State} (h : SameLog s u) : (getField n u).Ends (BitEnd (SameLog s)) :=
  getField_ends (fun _ _ hw => hw.stepCursor) h

theorem putPayloadByte_sameLog (k : Nat) (u : State) (h : SameLog s u) :
    (putPayloadByte k u).Ends (BitEnd (SameLog s)) :=
  putPayloadByte_ends (fun _ _ hw => hw.stepCursor) (fun _ _ _ _ hw => hw) k h

theorem getPayloadByte_sameLog (k : Nat) (u : State) (h : SameLog s u) :
    (getPayloadByte k u).Ends (BitEnd (SameLog s)) :=
  getPayloadByte_ends (fun _ _ hw => hw.stepCursor) (fun _ _ _ _ hw => hw) k h

end

/-- How each command may end. -/
theorem exec_flow_commandEnd (i : Instr) (s : State) :
    ∃ x, exec i s = endCommand x ∧ x.Ends (CommandEnd i s) := by
  have hs : SameLog s s := rfl
  have ho : SameLog s (openSession s) := rfl
  cases i with
  | cinit =>
    exact ⟨_, rfl, raiseIf_bind_commandEnd nofun hs
      ⟨nofun, nofun, fun _ => ⟨rfl, rfl⟩, fun ho => absurd rfl ho⟩⟩
  | wbit v =>
    exact ⟨_, rfl, raiseIf_bind_commandEnd nofun hs <|
      (writeBit_ends (fun _ _ h => h.stepCursor) (fun _ _ _ _ h => h) ⟨rfl, rfl⟩ v).commandEnd ⟨rfl, rfl⟩⟩
  | rbit =>
    exact ⟨_, rfl, raiseIf_bind_commandEnd nofun hs <|
      (readBit_ends (P := SameSession s) (fun _ _ h => h.stepCursor) ⟨rfl, rfl⟩).bind_commandEnd (fun _ h => h.1)
        fun _ _ (h : SameSession s _) => SameSession.commandEnd ⟨rfl, rfl⟩ h⟩
  | wfld8 => exact ⟨_, rfl, writeField_commandEnd ⟨rfl, rfl⟩ 8⟩
  | wfld16 => exact ⟨_, rfl, writeField_commandEnd ⟨rfl, rfl⟩ 16⟩
  | wfld64 => exact ⟨_, rfl, writeField_commandEnd ⟨rfl, rfl⟩ 64⟩
  | rfld8 => exact ⟨_, rfl, readField_commandEnd ⟨rfl, rfl⟩ 8⟩
  | rfld16 => exact ⟨_, rfl, readField_commandEnd ⟨rfl, rfl⟩ 16⟩
  | rfld64 => exact ⟨_, rfl, readField_commandEnd ⟨rfl, rfl⟩ 64⟩
  | encb =>
    exact ⟨_, rfl, raiseIf_bind_commandEnd nofun hs <| raiseIf_bind_commandEnd nofun hs <|
      raiseIf_bind_commandEnd nofun hs <|
      (putField_sameLog 64 _ ho).bind_commandEnd (fun _ => id) fun _ _ hu =>
      (loopFrom_ends putPayloadByte_sameLog ((hu.setSession _).setSession _)).bind_closeSession
        (i := .encb) (by decide)⟩
  | decb =>
    refine ⟨_, rfl, raiseIf_bind_commandEnd nofun hs <|
      (getField_sameLog 64 ho).bind_commandEnd (fun _ => id) fun l u hu => ?_⟩
    have hh : SameLog s (setSession .header { u with len := BitVec.ofNat 64 l }) := hu
    dsimp only
    split
    · exact raiseIf_bind_commandEnd nofun hh <|
        (loopFrom_ends getPayloadByte_sameLog (hh.setSession _)).bind_closeSession (i := .decb) (by decide)
    · exact SameLog.commandEnd_ambiguous (.inl rfl) hh
  | enci =>
    exact ⟨_, rfl, raiseIf_bind_commandEnd nofun hs <| raiseIf_bind_commandEnd nofun hs <|
      raiseIf_bind_commandEnd nofun hs <|
      (putField_sameLog 16 _ ho).bind_commandEnd (fun _ => id) fun _ _ hu =>
      (putField_sameLog 16 _ hu).bind_commandEnd (fun _ => id) fun _ _ hw =>
      (imageLoop_ends putPayloadByte_sameLog ((hw.setSession _).setSession _)).bind_closeSession
        (i := .enci) (by decide)⟩
  | deci =>
    refine ⟨_, rfl, raiseIf_bind_commandEnd nofun hs <|
      (getField_sameLog 16 ho).bind_commandEnd (fun _ => id) fun w1 v hv =>
      (getField_sameLog 16 hv).bind_commandEnd (fun _ => id) fun h1 u hu => ?_⟩
    have hh : SameLog s (setSession .header { u with imgw := BitVec.ofNat 16 w1, imgh := BitVec.ofNat 16 h1 }) := hu
    dsimp only
    split
    · exact raiseIf_bind_commandEnd nofun hh <|
        (imageLoop_ends getPayloadByte_sameLog (hh.setSession _)).bind_closeSession (i := .deci) (by decide)
    · exact SameLog.commandEnd_ambiguous (.inr rfl) hh
  | clrf => exact ⟨.ok () { s with flog := 0#8 }, rfl, nofun, nofun, fun _ => ⟨rfl, rfl⟩, fun ho => absurd rfl ho⟩

/-- The three ends of a command, with what each leaves in the log and in the session fields. -/
theorem exec_outcome {i : Instr} {s t : State} (h : exec i s = .next t) :
    (t.status = .ok ∧ t.flog = logAfter i s ∧ (t.session, t.cvalid) = sessionAfter i s) ∨
    (t.status = .ambiguousHeader ∧ (i = .decb ∨ i = .deci) ∧ t.flog = s.flog ∧ t.session = .complete ∧
      t.cvalid = false) ∨
    (∃ k, k ≠ .illegalCommand ∧ t.status = causeStatus k ∧ t.flog = logCause k s.flog ∧ t.session = .failed ∧
      t.cvalid = false) := by
  obtain ⟨x, hx, hends⟩ := exec_flow_commandEnd i s
  obtain ⟨u, ⟨hu, rfl⟩ | ⟨k, hu, rfl⟩ | ⟨hu, rfl⟩⟩ := endCommand_next hends (hx ▸ h)
  · exact .inl ⟨rfl, hu.ok rfl⟩
  · refine .inr (.inr ⟨k, fun hk => hu.legal (hk ▸ rfl), rfl, ?_, rfl, rfl⟩)
    exact congrArg (logCause k) (hu.not_ok (by cases k <;> exact nofun))
  · exact .inr (.inl ⟨rfl, hu.ambiguous rfl, hu.not_ok nofun, rfl, rfl⟩)

/-! ### The log (R20) -/

/-- R20, R143: a cause sets the bit of its code and leaves the other seven. -/
theorem logCause_getLsbD (k : Cause) (flog : BitVec 8) (j : Nat) :
    (logCause k flog).getLsbD j = (flog.getLsbD j || decide (j = (statusCode (causeStatus k)).toNat)) := by
  have hk : (statusCode (causeStatus k)).toNat < 8 := by cases k <;> decide
  have hbit := BitVec.getLsbD_twoPow (w := 8) (statusCode (causeStatus k)).toNat j
  rw [logCause, BitVec.getLsbD_or, ← BitVec.twoPow, hbit]
  simp [hk, eq_comm]

/-! ### The statements about every command -/

/-- Settles O51: no update of any command writes the configuration, the bounds, the sizes or the input. -/
theorem engineKeepsConfiguration : Obligations.EngineKeepsConfiguration :=
  fun _ _ _ h => (exec_keepsRegisters h).1

/-- Settles O52: the three ends of a command, each cause with the bit of its code. -/
theorem outcomeLogAndStateAgree : Obligations.OutcomeLogAndStateAgree := by
  intro i s t h
  obtain ⟨hst, hlog, -⟩ | hamb | ⟨k, hk, hst, hlog, hses, hcv⟩ := exec_outcome h
  · exact .inl ⟨hst, hlog⟩
  · exact .inr (.inl hamb)
  · refine .inr (.inr ⟨(statusCode (causeStatus k)).toNat, ?_, fun j _ => ?_, hses, hcv⟩)
    · rw [hst]
      cases k
      case illegalCommand => exact absurd rfl hk
      all_goals decide
    · rw [hlog, logCause_getLsbD]

/-- Settles O53: `BITQ` is in the frame of every command but `RBIT`. -/
theorem onlyRbitWritesBitq : Obligations.OnlyRbitWritesBitq := by
  intro i s t h hi
  obtain ⟨-, hbitq, -⟩ := exec_keepsRegisters h
  exact hbitq hi

/-- Settles O54: each data register is in the frame of every command but its writers. -/
theorem dataRegisterWriters : Obligations.DataRegisterWriters := by
  intro i s t h
  obtain ⟨-, -, hfld, hlen, himg⟩ := exec_keepsRegisters h
  exact ⟨fun hi => hfld (readWidth_eq_zero hi), hlen, himg⟩

/-- Settles O55: by the three ends of a command. -/
theorem sessionStateWriters : Obligations.SessionStateWriters := by
  intro i s t h
  obtain ⟨hst, -, hses⟩ | ⟨hst, hi, -, hses, -⟩ | ⟨k, -, hst, -, hses, -⟩ := exec_outcome h
  · rw [if_pos (.inl hst), show t.session = (sessionAfter i s).1 from congrArg Prod.fst hses, sessionAfter]
    split_ifs <;> rfl
  · rw [if_pos (.inr hst)]
    obtain rfl | rfl := hi
    · exact hses
    · exact hses
  · rw [if_neg (by rw [hst]; cases k <;> decide)]
    exact hses

end Sys2Proof.Machine
end

section
/-! The invariant over every host action (R14, R18, R20, R50, R140). -/

namespace Sys2Proof.Machine

/-! ### What of `Inv` holds within a command as well -/

/-- The clauses of `Inv` about the cursor's bounds and the memories. -/
structure InBounds (s : State) : Prop where
  live : s.cvalid = true → CursorOk s
  exhausted : s.exh = true → AtEnd s
  raster_ok : MemoryOk s.rasterSize s.raster
  payload_ok : MemoryOk s.pbufSize s.payload

/-- `t` is `s` but for registers that neither place the cursor nor bound it. -/
def OnlyOtherRegisters (s t : State) : Prop :=
  t = { s with lenlim := t.lenlim, wlim := t.wlim, cvalid := t.cvalid, bitq := t.bitq, session := t.session,
               status := t.status, flog := t.flog, fld := t.fld, len := t.len, imgw := t.imgw, imgh := t.imgh,
               input := t.input }

theorem Inv.inBounds {s : State} (h : Inv s) : InBounds s := ⟨h.live, h.exhausted, h.raster_ok, h.payload_ok⟩

/-- Registers elsewhere may change, and a cursor may be released. -/
theorem InBounds.frame {s t : State} (h : InBounds s) (hlive : t.cvalid = true → s.cvalid = true)
    (ht : OnlyOtherRegisters s t) : InBounds t := by
  unfold OnlyOtherRegisters at ht
  rw [ht]
  refine ⟨fun hv => ?_, h.exhausted, h.raster_ok, h.payload_ok⟩
  obtain ⟨hrow, hcol, hchan, hfits⟩ := h.live (hlive hv)
  exact ⟨hrow, hcol, hchan, hfits⟩

/-- An advance that exhausts the cursor leaves it at `(0,0,0,7)` (R84, R140), whatever its bounds. -/
theorem stepCursor_atEnd {s : State} (he : s.exh = false) (h : (stepCursor s).exh = true) :
    AtEnd (stepCursor s) := by
  unfold stepCursor at h ⊢
  split_ifs at h ⊢ with hchan hcol hrow hplane
  iterate 4 · exact nomatch he.symm.trans h
  have h7 : s.plane.toNat = 7 := by have := s.plane.isLt; omega
  exact ⟨rfl, rfl, rfl, BitVec.eq_of_toNat_eq h7⟩

theorem InBounds.stepCursor {s : State} (h : InBounds s) (he : s.exh = false) : InBounds (stepCursor s) where
  live hv := (stepCursor_pos (h.live (by simpa using hv)) he).1
  exhausted := stepCursor_atEnd he
  raster_ok := by simpa using h.raster_ok
  payload_ok := by simpa using h.payload_ok

theorem InBounds.writeByte {s : State} (h : InBounds s) (sp : Space) {a : Nat}
    (ha : inSpace (sizeOfSpace sp s) a = true) (v : Byte) : InBounds (writeByte sp a v s) := by
  have hlive : s.cvalid = true → CursorOk (Sys2Proof.Machine.writeByte sp a v s) := fun hv => by
    obtain ⟨hrow, hcol, hchan, hfits⟩ := h.live hv
    cases sp <;> exact ⟨hrow, hcol, hchan, hfits⟩
  cases sp with
  | raster => exact ⟨hlive, h.exhausted, h.raster_ok.storeCell ha v, h.payload_ok⟩
  | payload => exact ⟨hlive, h.exhausted, h.raster_ok, h.payload_ok.storeCell ha v⟩

theorem InBounds.openSession {s : State} (h : InBounds s) (hb : badConfig s = false) : InBounds (openSession s) :=
  ⟨fun _ => .openSession hb, nofun, h.raster_ok, h.payload_ok⟩

/-- Every update in the pseudocode of every command keeps the bounds. -/
theorem keptBy_inBounds (i : Instr) : KeptBy i InBounds where
  advance _ he h := h.stepCursor he
  raster _ _ _ v ha h := h.writeByte .raster ha v
  payload _ _ _ v ha h := h.writeByte .payload ha v
  cinit _ _ hb h := h.openSession hb
  macroOpen _ _ hb h := h.openSession hb
  macroSession _ _ _ h := h.frame id rfl
  macroClose _ _ h := h.frame nofun rfl
  bitq _ _ _ h := h.frame id rfl
  fld _ _ _ h := h.frame id rfl
  len _ _ _ h := h.frame id rfl
  image _ _ _ _ h := h.frame id rfl
  log _ _ h := h.frame id rfl

theorem exec_inBounds {i : Instr} {s t : State} (hs : InBounds s) (h : exec i s = .next t) : InBounds t := by
  obtain ⟨u, hu, rfl | ⟨k, rfl⟩ | rfl⟩ := exec_keeps h hs (keptBy_inBounds i)
  · exact hu.frame id rfl
  · exact hu.frame nofun rfl
  · exact hu.frame nofun rfl

/-! ### The other clauses -/

/-- The clauses of `Inv` about the log and the session fields. -/
structure SessionOk (s : State) : Prop where
  session_legal : s.session = .idle ∨ s.session = .complete ∨ s.session = .failed
  live_idle : s.cvalid = true → s.session = .idle
  flog_reserved : s.flog.getLsbD 0 = false ∧ s.flog.getLsbD 3 = false

theorem Inv.sessionOk {s : State} (h : Inv s) : SessionOk s := ⟨h.session_legal, h.live_idle, h.flog_reserved⟩

theorem InBounds.inv {s : State} (hb : InBounds s) (hs : SessionOk s) : Inv s :=
  ⟨hb.live, hb.exhausted, hs.session_legal, hs.live_idle, hs.flog_reserved, hb.raster_ok, hb.payload_ok⟩

/-- No cause has code 0 or 3 (R20). -/
theorem logCause_reserved (k : Cause) {flog : BitVec 8} (h : flog.getLsbD 0 = false ∧ flog.getLsbD 3 = false) :
    (logCause k flog).getLsbD 0 = false ∧ (logCause k flog).getLsbD 3 = false := by
  rw [logCause_getLsbD, logCause_getLsbD, h.1, h.2]
  cases k <;> decide

theorem logAfter_reserved (i : Instr) {s : State} (h : s.flog.getLsbD 0 = false ∧ s.flog.getLsbD 3 = false) :
    (logAfter i s).getLsbD 0 = false ∧ (logAfter i s).getLsbD 3 = false := by
  unfold logAfter
  split
  · decide
  · exact h

theorem sessionAfter_legal (i : Instr) {s : State} (hs : SessionOk s) :
    ((sessionAfter i s).1 = .idle ∨ (sessionAfter i s).1 = .complete ∨ (sessionAfter i s).1 = .failed) ∧
      ((sessionAfter i s).2 = true → (sessionAfter i s).1 = .idle) := by
  unfold sessionAfter
  split
  · exact ⟨.inl rfl, fun _ => rfl⟩
  · split
    · exact ⟨.inr (.inl rfl), nofun⟩
    · exact ⟨hs.session_legal, hs.live_idle⟩

theorem exec_sessionOk {i : Instr} {s t : State} (hs : SessionOk s) (h : exec i s = .next t) : SessionOk t := by
  obtain ⟨-, hlog, hses⟩ | ⟨-, -, hlog, hses, hcv⟩ | ⟨k, -, -, hlog, hses, hcv⟩ := exec_outcome h
  · obtain ⟨hlegal, hidle⟩ := sessionAfter_legal i hs
    rw [← hses] at hlegal hidle
    exact ⟨hlegal, hidle, hlog ▸ logAfter_reserved i hs.flog_reserved⟩
  · exact ⟨.inr (.inl hses), fun hv => by simp [hcv] at hv, hlog ▸ hs.flog_reserved⟩
  · exact ⟨.inr (.inr hses), fun hv => by simp [hcv] at hv, hlog ▸ logCause_reserved k hs.flog_reserved⟩

theorem exec_inv {i : Instr} {s t : State} (hs : Inv s) (h : exec i s = .next t) : Inv t :=
  (exec_inBounds hs.inBounds h).inv (exec_sessionOk hs.sessionOk h)

/-! ### The host's actions -/

theorem Inv.takeFault {s : State} (h : Inv s) (k : Cause) : Inv (takeFault k s) :=
  InBounds.inv (h.inBounds.frame nofun rfl) ⟨.inr (.inr rfl), nofun, logCause_reserved k h.flog_reserved⟩

theorem issue_inv {word : Byte} {s t : State} (hs : Inv s) (h : issue word s = .next t) : Inv t := by
  unfold issue at h
  split at h
  · exact exec_inv hs h
  · obtain rfl := Host.Outcome.next.inj h
    exact hs.takeFault .illegalCommand

/-- All that a host write to the register port can do (R22, R12): set the configuration and release the
cursor, or set registers that neither place the cursor nor bound it. -/
theorem hostWrite_cases (n : Byte) (v : Quad) (s : State) :
    (∃ w h c, hostWrite n v s = { s with w := w, h := h, c := c, cvalid := false }) ∨
    (∃ lenlim wlim fld len imgw imgh, hostWrite n v s =
      { s with lenlim := lenlim, wlim := wlim, fld := fld, len := len, imgw := imgw, imgh := imgh }) := by
  unfold hostWrite
  split
  case h_1 | h_2 | h_3 => exact .inl ⟨_, _, _, rfl⟩
  all_goals exact .inr ⟨_, _, _, _, _, _, rfl⟩

theorem hostWrite_inv {s : State} (hs : Inv s) (n : Byte) (v : Quad) : Inv (hostWrite n v s) := by
  obtain ⟨w, h, c, e⟩ | ⟨lenlim, wlim, fld, len, imgw, imgh, e⟩ := hostWrite_cases n v s
  · rw [e]
    exact ⟨nofun, hs.exhausted, hs.session_legal, nofun, hs.flog_reserved, hs.raster_ok, hs.payload_ok⟩
  · rw [e]
    exact InBounds.inv (hs.inBounds.frame id rfl) ⟨hs.session_legal, hs.live_idle, hs.flog_reserved⟩

theorem writeByte_inv {s : State} (hs : Inv s) (sp : Space) {a : Nat}
    (ha : inSpace (sizeOfSpace sp s) a = true) (v : Byte) : Inv (writeByte sp a v s) :=
  (hs.inBounds.writeByte sp ha v).inv
    ⟨by simpa using hs.session_legal, by simpa using hs.live_idle, by simpa using hs.flog_reserved⟩

theorem resetEvent_inv {s : State} (hs : Inv s) : Inv (resetEvent s) :=
  have hlog : (0#8).getLsbD 0 = false ∧ (0#8).getLsbD 3 = false := by decide
  ⟨nofun, nofun, .inl rfl, nofun, hlog, hs.raster_ok, hs.payload_ok⟩

theorem performAction_inv {a : HostAction} {s t : State} (hs : Inv s) (h : performAction a s = .next t) : Inv t := by
  cases a with
  | command word => exact issue_inv hs h
  | regWrite n v =>
    obtain rfl := Host.Outcome.next.inj h
    exact hostWrite_inv hs n v
  | regRead n => exact Host.Outcome.next.inj h ▸ hs
  | memWrite sp a v =>
    simp only [performAction, hostMemWrite] at h
    split at h
    · next ha =>
      obtain rfl := Host.Outcome.next.inj h
      exact writeByte_inv hs sp ha _
    · exact nomatch h
  | memRead sp a =>
    simp only [performAction, hostMemRead] at h
    split at h
    · exact Host.Outcome.next.inj h ▸ hs
    · exact nomatch h
  | reset =>
    obtain rfl := Host.Outcome.next.inj h
    exact resetEvent_inv hs

/-! ### The step -/

theorem step_nil {s : State} (h : s.input = []) : step s = .next s := by
  simp [step, h]

theorem step_cons {s : State} {a : HostAction} {rest : List HostAction} (h : s.input = a :: rest) :
    step s = performAction a { s with input := rest } := by
  simp [step, h]

/-- Settles O48: every host action keeps `Inv`, and `Inv` does not see the input. -/
theorem stepKeepsInvariant : Obligations.StepKeepsInvariant := by
  intro s t hs h
  cases hin : s.input with
  | nil =>
    rw [step_nil hin] at h
    exact Host.Outcome.next.inj h ▸ hs
  | cons a rest =>
    rw [step_cons hin] at h
    have hrest : Inv { s with input := rest } :=
      InBounds.inv (hs.inBounds.frame id rfl) ⟨hs.session_legal, hs.live_idle, hs.flog_reserved⟩
    exact performAction_inv hrest h

/-- Settles O6: by the equation of the step for the action at the head of the input. -/
theorem stepPerformsHostActions : Obligations.StepPerformsHostActions := by
  intro s rest
  refine ⟨step_nil, fun n v h => step_cons h, fun n h => step_cons h, fun sp a v h => ?_, fun sp a h => ?_,
    fun h => step_cons h⟩
  · cases sp <;> exact step_cons h
  · cases sp <;> exact step_cons h

end Sys2Proof.Machine
end

section
/-! The register port (R11, R22). -/

namespace Sys2Proof.Machine

/-- R11's number column. -/
def Reg.number : Reg → Byte
  | .W => 0x00#8
  | .H => 0x01#8
  | .C => 0x02#8
  | .LENLIM => 0x03#8
  | .WLIM => 0x04#8
  | .ROW => 0x08#8
  | .COL => 0x09#8
  | .CHAN => 0x0A#8
  | .PLANE => 0x0B#8
  | .MASK => 0x0C#8
  | .CSTAT => 0x0D#8
  | .STATE => 0x10#8
  | .STATUS => 0x11#8
  | .FLOG => 0x12#8
  | .FLD => 0x18#8
  | .LEN => 0x19#8
  | .IMGW => 0x1A#8
  | .IMGH => 0x1B#8

/-- The register found at a number is the one R11 gives that number. -/
theorem number_of_regAt {n : Byte} {r : Reg} (h : regAt n = some r) : n = r.number := by
  unfold regAt at h
  split at h
  case h_19 => exact nomatch h
  all_goals
    next hn =>
      obtain rfl := Option.some.inj h
      exact BitVec.eq_of_toNat_eq hn

theorem hostRead_none {n : Byte} (h : ∀ r : Reg, n ≠ r.number) (s : State) : hostRead n s = 0#64 := by
  unfold hostRead
  split
  · next r hr => exact absurd (number_of_regAt hr) (h r)
  · rfl

/-- Settles O10: register by register, and no register has a number in the gaps of R11's table. -/
theorem registerPortReadsRegisters : Obligations.RegisterPortReadsRegisters := by
  intro s
  refine ⟨rfl, rfl, rfl, rfl, rfl, rfl, rfl, rfl, rfl, rfl, rfl, rfl, rfl, rfl, fun n hn => hostRead_none ?_ s⟩
  rintro r rfl
  cases r <;> simp [Reg.number] at hn

/-- R16: `MASK` is `2 ^ PLANE`. -/
theorem maskOf_toNat (plane : BitVec 3) : (maskOf plane).toNat = 2 ^ plane.toNat := by
  rw [maskOf, ← BitVec.twoPow, BitVec.toNat_twoPow]
  exact Nat.mod_eq_of_lt (Nat.pow_lt_pow_right (by decide) plane.isLt)

/-- R17: `CSTAT` as the sum of its three bits. -/
theorem cstatOf_toNat (cvalid exh bitq : Bool) :
    (cstatOf cvalid exh bitq).toNat = cvalid.toNat + 2 * exh.toNat + 4 * bitq.toNat := by
  cases cvalid <;> cases exh <;> cases bitq <;> rfl

/-- Settles O11: a code is zero-extended without loss, and each is the one R16 to R19 give. -/
theorem registerPortReadsFlagsAndCodes : Obligations.RegisterPortReadsFlagsAndCodes := by
  intro s
  refine ⟨?_, ?_, ?_, ?_⟩
  · calc (hostRead 0x0C#8 s).toNat = ((maskOf s.plane).setWidth 64).toNat := rfl
      _ = (maskOf s.plane).toNat := BitVec.toNat_setWidth_of_le (by decide)
      _ = 2 ^ s.plane.toNat := maskOf_toNat s.plane
  · calc (hostRead 0x0D#8 s).toNat = ((cstatOf s.cvalid s.exh s.bitq).setWidth 64).toNat := rfl
      _ = (cstatOf s.cvalid s.exh s.bitq).toNat := BitVec.toNat_setWidth_of_le (by decide)
      _ = s.cvalid.toNat + 2 * s.exh.toNat + 4 * s.bitq.toNat := cstatOf_toNat ..
  · rw [show hostRead 0x10#8 s = (sessionCode s.session).setWidth 64 from rfl]
    cases s.session <;> rfl
  · rw [show hostRead 0x11#8 s = (statusCode s.status).setWidth 64 from rfl]
    cases s.status <;> rfl

/-- Settles O12: each number of R11's table names its register. -/
theorem registerPortWrites : Obligations.RegisterPortWrites :=
  fun _ _ => ⟨rfl, rfl, rfl, rfl, rfl, rfl, rfl, rfl, rfl⟩

/-- Settles O13: a number that is none of the nine writable registers' names a read-only one, or none. -/
theorem registerPortIgnoresOtherWrites : Obligations.RegisterPortIgnoresOtherWrites := by
  intro s n v hn
  unfold hostWrite
  cases hr : regAt n with
  | none => rfl
  | some r =>
    obtain rfl := number_of_regAt hr
    cases r
    case W | H | C | LENLIM | WLIM | FLD | LEN | IMGW | IMGH => exact absurd (by decide) hn
    all_goals rfl

end Sys2Proof.Machine
end

section
/-! The memories: the host's port to them (R55), which command writes which space (R45, R50), and that the
engine's accesses stay within the two spaces (R42, R45). -/

namespace Sys2Proof.Machine

/-! ### The host's port (R55) -/

/-- A write to one space changes nothing but the memories. -/
theorem writeByte_frame (sp : Space) (a : Nat) (v : Byte) (s : State) :
    writeByte sp a v s =
      { s with raster := (writeByte sp a v s).raster, payload := (writeByte sp a v s).payload } := by
  cases sp <;> rfl

theorem hostMemWrite_inside {sp : Space} {a : Nat} {s : State} (h : inSpace (sizeOfSpace sp s) a = true) (v : Quad) :
    hostMemWrite sp a v s = .next (writeByte sp a (v.setWidth 8) s) := if_pos h

theorem hostMemWrite_outside {sp : Space} {a : Nat} {s : State} (h : inSpace (sizeOfSpace sp s) a = false) (v : Quad) :
    hostMemWrite sp a v s = .refused (.hostAddress sp) := if_neg (by simp [h])

theorem hostMemRead_inside {sp : Space} {a : Nat} {s : State} (h : inSpace (sizeOfSpace sp s) a = true) :
    hostMemRead sp a s = .next s := if_pos h

theorem hostMemRead_outside {sp : Space} {a : Nat} {s : State} (h : inSpace (sizeOfSpace sp s) a = false) :
    hostMemRead sp a s = .refused (.hostAddress sp) := if_neg (by simp [h])

/-- Settles O14: within the space the write is `writeByte`, and read after write gives the rest. -/
theorem hostMemoryWriteStoresOneByte : Obligations.HostMemoryWriteStoresOneByte := fun s sp a v =>
  ⟨fun ha => ⟨writeByte sp a (v.setWidth 8) s, hostMemWrite_inside ha v, writeByte_frame sp a _ s,
      readByte_writeByte_self sp a _ s, fun _ _ hne => readByte_writeByte_other hne _ s⟩,
    fun ha => hostMemWrite_outside ha v⟩

/-! ### Which command writes which space (R45, R50) -/

/-- The pseudocode of `i` has a write to the space in it. -/
def WritesSpace (i : Instr) : Space → Prop
  | .raster => writesRaster i = true
  | .payload => i = .decb ∨ i = .deci

/-- One space holds in `u` what it held in `s`. -/
def SameSpace (sp : Space) (s u : State) : Prop := memoryOf sp u = memoryOf sp s

theorem SameSpace.refl (sp : Space) (s : State) : SameSpace sp s s := rfl

/-- An update of registers leaves both spaces. -/
theorem SameSpace.frame {sp : Space} {s u t : State} (h : SameSpace sp s u) (hr : t.raster = u.raster)
    (hp : t.payload = u.payload) : SameSpace sp s t := by
  cases sp with
  | raster => exact hr.trans h
  | payload => exact hp.trans h

theorem SameSpace.writeByte_other {sp sp' : Space} {s u : State} (h : SameSpace sp s u) (hne : sp ≠ sp') (a : Nat)
    (v : Byte) : SameSpace sp s (writeByte sp' a v u) :=
  (memoryOf_writeByte_other hne a v u).trans h

/-- A command with no write to a space in its pseudocode leaves the space at every line. -/
theorem keptBy_sameSpace {i : Instr} {sp : Space} (hw : ¬ WritesSpace i sp) (s : State) :
    KeptBy i (SameSpace sp s) where
  advance u _ h := h.frame (stepCursor_raster u) (stepCursor_payload u)
  raster hi _ a v _ h := h.writeByte_other (by rintro rfl; exact hw hi) a v
  payload hi _ a v _ h := h.writeByte_other (by rintro rfl; exact hw hi) a v
  cinit _ _ _ h := h.frame rfl rfl
  macroOpen _ _ _ h := h.frame rfl rfl
  macroSession _ _ _ h := h.frame rfl rfl
  macroClose _ _ h := h.frame rfl rfl
  bitq _ _ _ h := h.frame rfl rfl
  fld _ _ _ h := h.frame rfl rfl
  len _ _ _ h := h.frame rfl rfl
  image _ _ _ _ h := h.frame rfl rfl
  log _ _ h := h.frame rfl rfl

theorem exec_sameSpace {i : Instr} {s t : State} {sp : Space} (h : exec i s = .next t) (hw : ¬ WritesSpace i sp) :
    SameSpace sp s t := by
  obtain ⟨u, hu, rfl | ⟨k, rfl⟩ | rfl⟩ := exec_keeps h (.refl sp s) (keptBy_sameSpace hw s)
  · exact hu.frame rfl rfl
  · exact hu.frame rfl rfl
  · exact hu.frame rfl rfl

/-- None of the eight reader forms of R50 has a `WriteBit` in it. -/
theorem writesRaster_of_reader :
    ∀ i ∈ [Instr.cinit, .rbit, .rfld8, .rfld16, .rfld64, .decb, .deci, .clrf], writesRaster i = false := by
  decide

/-- Settles O56: no update in a reader's pseudocode writes the raster, and neither does an end. -/
theorem readersLeaveRaster : Obligations.ReadersLeaveRaster := fun i _ _ h hi =>
  have hw : ¬ WritesSpace i .raster := Bool.eq_false_iff.mp (writesRaster_of_reader i hi)
  readByte_congr .raster (exec_sameSpace h hw)

/-- Settles O57: no update but a decoder's writes the payload space, and neither does an end. -/
theorem onlyDecodersWritePayload : Obligations.OnlyDecodersWritePayload := fun i _ _ h hdecb hdeci =>
  have hw : ¬ WritesSpace i .payload := fun hi => hi.elim hdecb hdeci
  readByte_congr .payload (exec_sameSpace h hw)

/-! ### The engine's accesses stay within the spaces (R42, R45) -/

/-- This line does not stop the machine, and where it goes on its state meets `P`. -/
def Flow.Safe {α : Type} (P : State → Prop) (x : Flow α) : Prop :=
  match x with
  | .ok _ s => P s
  | .raised _ _ => True
  | .ambiguous _ => True
  | .stopped _ => False

section
variable {α β : Type} {P Q : State → Prop}

theorem Flow.Safe.bind {x : Flow α} {next : α → State → Flow β} (hx : x.Safe P)
    (hn : ∀ a s, P s → (next a s).Safe Q) : (x.bind next).Safe Q := by
  cases x with
  | ok a s => exact hn a s hx
  | raised k s => trivial
  | ambiguous s => trivial
  | stopped f => exact hx

theorem Flow.Safe.imp {x : Flow α} (hx : x.Safe P) (h : ∀ s, P s → Q s) : x.Safe Q := by
  cases x with
  | ok a s => exact h s hx
  | raised k s => trivial
  | ambiguous s => trivial
  | stopped f => exact hx

/-- `if cond: raise Cause` before the rest of a command, which sees the same state and that `cond` fails. -/
theorem raiseIf_bind_safe {b : Bool} {k : Cause} {s : State} {next : Unit → State → Flow α}
    (hn : b = false → (next () s).Safe P) : ((raiseIf b k s).bind next).Safe P := by
  cases hb : b with
  | true => trivial
  | false => exact hn hb

/-- A loop whose body is safe at each of its indices. -/
theorem loopFrom_safe {body : Nat → State → Flow Unit} {k n : Nat}
    (hb : ∀ i u, i < k + n → P u → (body i u).Safe P) {s : State} (hs : P s) : (loopFrom k n body s).Safe P := by
  induction n generalizing k s with
  | zero => exact hs
  | succ m ih =>
    exact (hb k s (by omega) hs).bind fun _ u hu => ih (fun i w hi => hb i w (by omega)) hu

/-- A command whose pseudocode is safe has an end state. -/
theorem endCommand_of_safe {x : Flow Unit} (hx : x.Safe P) : ∃ t, endCommand x = .next t := by
  cases x with
  | ok a s => exact ⟨_, rfl⟩
  | raised k s => exact ⟨_, rfl⟩
  | ambiguous s => exact ⟨_, rfl⟩
  | stopped f => exact hx.elim

end

/-- A cursor within its bounds and `n` bytes within the payload space: what a command's accesses need. -/
structure Ready (n : Nat) (s : State) : Prop where
  cursor : CursorOk s
  payload : exceeds s.pbufSize n = false

theorem exceeds_zero (size : Option Nat) : exceeds size 0 = false := by
  cases size <;> rfl

/-- A command that does not access the payload space needs the cursor alone. -/
theorem CursorOk.ready {s : State} (h : CursorOk s) : Ready 0 s := ⟨h, exceeds_zero _⟩

theorem OnlyBits.pbufSize {s t : State} (h : OnlyBits s t) : t.pbufSize = s.pbufSize := by
  unfold OnlyBits at h; rw [h]

/-- `ENCB` takes the bound of its loop from `LEN` after the header is written (R111). -/
theorem OnlyBits.len {s t : State} (h : OnlyBits s t) : t.len = s.len := by
  unfold OnlyBits at h; rw [h]

section
variable {n : Nat} {s t : State}

theorem Ready.onlyBits (h : Ready n s) (hc : CursorOk t) (hb : OnlyBits s t) : Ready n t :=
  ⟨hc, hb.pbufSize ▸ h.payload⟩

/-- An update of registers that neither place the cursor nor bound it (R14). -/
theorem Ready.frame (h : Ready n s) (ht : OnlyOtherRegisters s t) : Ready n t := by
  unfold OnlyOtherRegisters at ht
  obtain ⟨⟨hrow, hcol, hchan, hfits⟩, hpay⟩ := h
  rw [ht]
  exact ⟨⟨hrow, hcol, hchan, hfits⟩, hpay⟩

theorem Ready.writePayload (h : Ready n s) (a : Nat) (v : Byte) : Ready n (writeByte .payload a v s) :=
  ⟨⟨h.cursor.row_lt, h.cursor.col_lt, h.cursor.chan_lt, h.cursor.fits⟩, h.payload⟩

/-- After `ConfigCheck()` and the payload test a session opens ready (R80, R81, R111, R121). -/
theorem Ready.openSession (hb : badConfig s = false) (hp : exceeds s.pbufSize n = false) :
    Ready n (openSession s) := ⟨.openSession hb, hp⟩

theorem writeBit_safe (h : Ready n s) (v : Bool) : (writeBit v s).Safe (Ready n) := by
  cases he : s.exh with
  | true => rw [writeBit_exhausted he]; trivial
  | false =>
    obtain ⟨t, ht, hw⟩ := writeBit_ok h.cursor he v
    rw [ht]
    exact h.onlyBits hw.ok hw.only

theorem readBit_safe (h : Ready n s) : (readBit s).Safe (Ready n) := by
  cases he : s.exh with
  | true => rw [readBit_exhausted he]; trivial
  | false =>
    obtain ⟨t, ht, hm⟩ := readBit_ok h.cursor he
    rw [ht]
    exact h.onlyBits hm.ok hm.only.onlyBits

/-- A field write runs out of positions or goes on, and all but the bits and the cursor is as it was. -/
theorem putField_onlyBits (m v : Nat) (h : CursorOk s) :
    (putField m v s).Safe fun t => CursorOk t ∧ OnlyBits s t := by
  by_cases hfit : pos s + m ≤ 8 * cells s
  · obtain ⟨t, ht, hw⟩ := putField_ok h hfit v
    rw [ht]
    exact ⟨hw.ok, hw.only⟩
  · obtain ⟨t, ht, -⟩ := putField_exhausted h (Nat.lt_of_not_le hfit) v
    rw [ht]
    trivial

theorem putField_safe (m v : Nat) (h : Ready n s) : (putField m v s).Safe (Ready n) :=
  (putField_onlyBits m v h.cursor).imp fun _ ⟨hc, hb⟩ => h.onlyBits hc hb

theorem getField_safe (m : Nat) (h : Ready n s) : (getField m s).Safe (Ready n) := by
  suffices ∀ acc, (getBits m acc s).Safe (Ready n) from this 0
  induction m generalizing s with
  | zero => exact fun _ => h
  | succ m ih => exact fun _ => (readBit_safe h).bind fun _ _ hu => ih hu _

theorem putPayloadByte_safe {k : Nat} (hk : k < n) (h : Ready n s) : (putPayloadByte k s).Safe (Ready n) := by
  have hin : inSpace (sizeOfSpace .payload s) k = true := inSpace_of_lt h.payload hk
  rw [putPayloadByte, memRead_ok hin]
  exact putField_safe 8 _ h

theorem getPayloadByte_safe {k : Nat} (hk : k < n) (h : Ready n s) : (getPayloadByte k s).Safe (Ready n) :=
  (getField_safe 8 h).bind fun b u hu => by
    have hin : inSpace (sizeOfSpace .payload u) k = true := inSpace_of_lt hu.payload hk
    rw [memWrite_ok hin]
    exact hu.writePayload k _

/-- The body of a codec command over `n` payload bytes, and the close of its session. -/
theorem loop_closeSession_safe {body : Nat → State → Flow Unit}
    (hb : ∀ k u, k < n → Ready n u → (body k u).Safe (Ready n)) (h : Ready n s) :
    ((loop n body s).bind fun _ u => .ok () (closeSession u)).Safe (Ready 0) :=
  (loopFrom_safe (fun k u hk => hb k u (by omega)) h).bind fun _ _ hu => hu.cursor.ready.frame rfl

theorem imageLoop_closeSession_safe {w1 h1 : Nat} {body : Nat → State → Flow Unit}
    (hb : ∀ k u, k < imageBytes w1 h1 → Ready (imageBytes w1 h1) u → (body k u).Safe (Ready (imageBytes w1 h1)))
    (h : Ready (imageBytes w1 h1) s) :
    ((imageLoop w1 h1 body s).bind fun _ u => .ok () (closeSession u)).Safe (Ready 0) := by
  rw [imageLoop_eq_loop]
  exact loop_closeSession_safe hb h

end

section
variable {s : State} (hlive : s.cvalid = true → CursorOk s)
include hlive

/-- Past `if CVALID == 0: raise NoCursor` the cursor is within its bounds. -/
theorem requireCursor_bind_safe {α : Type} {P : State → Prop} {next : Unit → State → Flow α}
    (hn : Ready 0 s → (next () s).Safe P) : ((requireCursor s).bind next).Safe P :=
  raiseIf_bind_safe fun hv => hn (hlive (by simpa using hv)).ready

theorem writeField_safe (m : Nat) : (writeField m s).Safe (Ready 0) :=
  requireCursor_bind_safe hlive fun h => putField_safe m _ h

theorem readField_safe (m : Nat) : (readField m s).Safe (Ready 0) :=
  requireCursor_bind_safe hlive fun h => (getField_safe m h).bind fun _ _ hu => hu.frame rfl

/-- From a state whose live cursor is within its bounds every command has an end state. -/
theorem exec_completes (i : Instr) : ∃ t, exec i s = .next t := by
  cases i with
  | cinit =>
    exact endCommand_of_safe (P := Ready 0) (raiseIf_bind_safe fun hb => .openSession hb (exceeds_zero _))
  | wbit v => exact endCommand_of_safe (requireCursor_bind_safe hlive fun h => writeBit_safe h v)
  | rbit =>
    exact endCommand_of_safe (P := Ready 0) (requireCursor_bind_safe hlive fun h =>
      (readBit_safe h).bind fun _ _ hu => hu.frame rfl)
  | wfld8 => exact endCommand_of_safe (writeField_safe hlive 8)
  | wfld16 => exact endCommand_of_safe (writeField_safe hlive 16)
  | wfld64 => exact endCommand_of_safe (writeField_safe hlive 64)
  | rfld8 => exact endCommand_of_safe (readField_safe hlive 8)
  | rfld16 => exact endCommand_of_safe (readField_safe hlive 16)
  | rfld64 => exact endCommand_of_safe (readField_safe hlive 64)
  | encb =>
    refine endCommand_of_safe (P := Ready 0) (raiseIf_bind_safe fun hb => raiseIf_bind_safe fun hp =>
      raiseIf_bind_safe fun _ => (putField_onlyBits 64 _ (.openSession hb)).bind fun _ u ⟨hc, hu⟩ => ?_)
    have hready : Ready u.len.toNat u := hu.len ▸ (Ready.openSession hb hp).onlyBits hc hu
    exact loop_closeSession_safe (fun _ _ => putPayloadByte_safe) (hready.frame rfl)
  | decb =>
    refine endCommand_of_safe (P := Ready 0) (raiseIf_bind_safe fun hb =>
      (getField_safe 64 (.openSession hb (exceeds_zero _))).bind fun l u hu => ?_)
    dsimp only
    split
    · exact raiseIf_bind_safe fun hp =>
        loop_closeSession_safe (fun _ _ => getPayloadByte_safe) (Ready.frame ⟨hu.cursor, hp⟩ rfl)
    · trivial
  | enci =>
    refine endCommand_of_safe (P := Ready 0) (raiseIf_bind_safe fun hb => raiseIf_bind_safe fun hp =>
      raiseIf_bind_safe fun _ => (putField_safe 16 _ (.openSession hb hp)).bind fun _ v hv =>
      (putField_safe 16 _ hv).bind fun _ u hu => ?_)
    exact imageLoop_closeSession_safe (fun _ _ => putPayloadByte_safe) (hu.frame rfl)
  | deci =>
    refine endCommand_of_safe (P := Ready 0) (raiseIf_bind_safe fun hb =>
      (getField_safe 16 (.openSession hb (exceeds_zero _))).bind fun w1 v hv =>
      (getField_safe 16 hv).bind fun h1 u hu => ?_)
    dsimp only
    split
    · exact raiseIf_bind_safe fun hp =>
        imageLoop_closeSession_safe (fun _ _ => getPayloadByte_safe) (Ready.frame ⟨hu.cursor, hp⟩ rfl)
    · trivial
  | clrf => exact ⟨_, rfl⟩

end

/-- R131: a legal word runs its command to an end, and every other raises `IllegalCommand`. -/
theorem issue_completes {s : State} (hs : Inv s) (word : Byte) : ∃ t, issue word s = .next t := by
  unfold issue
  split
  · exact exec_completes hs.live _
  · exact ⟨_, rfl⟩

/-! ### The stops of a step (R42, R45, R55) -/

/-- The action is an access to an address its space does not have, and `r` is the refusal of that space. -/
def OutsideAccess (s : State) (a : HostAction) (r : Refusal) : Prop :=
  ∃ sp addr, (a = .memRead sp addr ∨ ∃ v, a = .memWrite sp addr v) ∧
    inSpace (sizeOfSpace sp s) addr = false ∧ r = .hostAddress sp

/-- From a state that meets the invariant an action has an end state, or it is an access outside its space and
is refused. -/
theorem performAction_ends {s : State} (hs : Inv s) (a : HostAction) :
    (∃ t, performAction a s = .next t) ∨ ∃ r, performAction a s = .refused r ∧ OutsideAccess s a r := by
  cases a with
  | command word => exact .inl (issue_completes hs word)
  | regWrite n v => exact .inl ⟨_, rfl⟩
  | regRead n => exact .inl ⟨_, rfl⟩
  | memWrite sp a v =>
    cases ha : inSpace (sizeOfSpace sp s) a with
    | true => exact .inl ⟨_, hostMemWrite_inside ha v⟩
    | false => exact .inr ⟨_, hostMemWrite_outside ha v, sp, a, .inr ⟨v, rfl⟩, ha, rfl⟩
  | memRead sp a =>
    cases ha : inSpace (sizeOfSpace sp s) a with
    | true => exact .inl ⟨_, hostMemRead_inside ha⟩
    | false => exact .inr ⟨_, hostMemRead_outside ha, sp, a, .inl rfl, ha, rfl⟩
  | reset => exact .inl ⟨_, rfl⟩

/-- The same of a step: the action is the one at the head of the input. -/
theorem step_ends {s : State} (hs : Inv s) :
    (∃ t, step s = .next t) ∨
      ∃ r a rest, step s = .refused r ∧ s.input = a :: rest ∧ OutsideAccess s a r := by
  cases hin : s.input with
  | nil => exact .inl ⟨s, step_nil hin⟩
  | cons a rest =>
    rw [step_cons hin]
    have hrest : Inv { s with input := rest } :=
      InBounds.inv (hs.inBounds.frame id rfl) ⟨hs.session_legal, hs.live_idle, hs.flog_reserved⟩
    obtain ht | ⟨r, hr, sp, addr, ha, hout, rfl⟩ := performAction_ends hrest a
    · exact .inl ht
    · exact .inr ⟨_, a, rest, hr, rfl, sp, addr, ha, by cases sp <;> exact hout, rfl⟩

/-- Settles O50: a step goes on or is such a refusal, so it is no fault. -/
theorem onlyOutsideHostAccessesStop : Obligations.OnlyOutsideHostAccessesStop := by
  intro s hs
  obtain ⟨t, ht⟩ | ⟨r, a, rest, hr, hin, sp, addr, ha, hout, rfl⟩ := step_ends hs
  · rw [ht]
    exact ⟨nofun, nofun⟩
  · rw [hr]
    refine ⟨nofun, fun r' e => ⟨sp, addr, rest, ?_, hout, (Host.Outcome.refused.inj e).symm⟩⟩
    obtain rfl | ⟨v, rfl⟩ := ha
    · exact .inl hin
    · exact .inr ⟨v, hin⟩

end Sys2Proof.Machine
end

section
/-! The decoder and the encoder (R62 to R65): what the decoder may say of a raw command, and that the two are
each other's inverse. -/

namespace Sys2Proof

open Laws

/-! ### A word and its two fields (R62) -/

@[simp] theorem opField_wordOf (op arg : BitVec 4) : opField (wordOf op arg) = op :=
  BitVec.extractLsb'_append_eq_left

@[simp] theorem argField_wordOf (op arg : BitVec 4) : argField (wordOf op arg) = arg :=
  BitVec.extractLsb'_append_eq_right

theorem wordOf_fields (word : Byte) : wordOf (opField word) (argField word) = word :=
  BitVec.extractLsb'_append_extractLsb' (w := 4) (len := 4)

/-! ### The checks of R62, by the size of the operand field -/

theorem decodeZ_nonzeroBits {arg : BitVec 4} (h : 0 < arg.toNat) (i : Instr) :
    decodeZ arg i = .illegal .nonzeroBits :=
  if_neg (by bv_omega)

theorem decodeB_nonzeroBits {arg : BitVec 4} (h : 1 < arg.toNat) (i : Bool → Instr) :
    decodeB arg i = .illegal .nonzeroBits :=
  have hhigh : ∀ a : BitVec 4, 1 < a.toNat → a.extractLsb' 1 3 ≠ 0#3 := by decide
  if_neg (hhigh arg h)

theorem decodeF_nonzeroBits {arg : BitVec 4} (h : 3 < arg.toNat) (i8 i16 i64 : Instr) :
    decodeF arg i8 i16 i64 = .illegal .nonzeroBits :=
  have hhigh : ∀ a : BitVec 4, 3 < a.toNat → a.extractLsb' 2 2 ≠ 0#2 := by decide
  if_neg (hhigh arg h)

section
variable {o : Operation}

theorem wellFormed_of_z (h : o.format = .z) (arg : BitVec 4) :
    RawCommand.wellFormed ⟨o, arg⟩ = decide (arg.toNat = 0) := by
  simp [RawCommand.wellFormed, h]

theorem wellFormed_of_b (h : o.format = .b) (arg : BitVec 4) :
    RawCommand.wellFormed ⟨o, arg⟩ = decide (arg.toNat ≤ 1) := by
  simp [RawCommand.wellFormed, h]

theorem wellFormed_of_f (h : o.format = .f) (arg : BitVec 4) :
    RawCommand.wellFormed ⟨o, arg⟩ = decide (arg.toNat ≤ 2) := by
  simp [RawCommand.wellFormed, h]

end

/-! ### What the decoder may say of a raw command (R62, R65) -/

/-- `d` is right about `r`: the instruction `r` is the raw form of, or the reason `r` is the raw form of none. -/
inductive Verdict (r : RawCommand) : Decoded → Prop
  | legal {i : Instr} (h : i.raw = r) : Verdict r (.legal i)
  | nonzeroBits (hr : r.wellFormed = false) (hwidth : ¬ (r.operation.format = .f ∧ r.arg = 0b0011#4)) :
      Verdict r (.illegal .nonzeroBits)
  | reservedWidth (hf : r.operation.format = .f) (harg : r.arg = 0b0011#4) : Verdict r (.illegal .reservedWidth)

section
variable {o : Operation}

theorem decodeZ_verdict (hz : o.format = .z) {i : Instr} (hi : i.raw = ⟨o, 0⟩) (arg : BitVec 4) :
    Verdict ⟨o, arg⟩ (decodeZ arg i) := by
  obtain rfl | h : arg = 0 ∨ 0 < arg.toNat := by bv_omega
  · exact .legal hi
  · rw [decodeZ_nonzeroBits h]
    exact .nonzeroBits (by simpa [wellFormed_of_z hz] using h.ne') (by simp [hz])

theorem decodeB_verdict (hb : o.format = .b) {i : Bool → Instr} (h0 : (i false).raw = ⟨o, 0⟩)
    (h1 : (i true).raw = ⟨o, 1⟩) (arg : BitVec 4) : Verdict ⟨o, arg⟩ (decodeB arg i) := by
  obtain rfl | rfl | h : arg = 0 ∨ arg = 1 ∨ 1 < arg.toNat := by bv_omega
  · exact .legal h0
  · exact .legal h1
  · rw [decodeB_nonzeroBits h]
    exact .nonzeroBits (by simpa [wellFormed_of_b hb] using h) (by simp [hb])

theorem decodeF_verdict (hf : o.format = .f) {i8 i16 i64 : Instr} (h8 : i8.raw = ⟨o, 0⟩)
    (h16 : i16.raw = ⟨o, 1⟩) (h64 : i64.raw = ⟨o, 2⟩) (arg : BitVec 4) : Verdict ⟨o, arg⟩ (decodeF arg i8 i16 i64) := by
  obtain rfl | rfl | rfl | rfl | h : arg = 0 ∨ arg = 1 ∨ arg = 2 ∨ arg = 3 ∨ 3 < arg.toNat := by bv_omega
  · exact .legal h8
  · exact .legal h16
  · exact .legal h64
  · exact .reservedWidth hf rfl
  · rw [decodeF_nonzeroBits h]
    exact .nonzeroBits (by simpa [wellFormed_of_f hf] using Nat.lt_of_succ_lt h)
      fun ⟨_, harg⟩ => h.ne' (congrArg BitVec.toNat harg)

end

/-- The decoder is right about every raw command: R63's table, one arm per operation. -/
theorem decode_verdict (r : RawCommand) : Verdict r (decode r.word) := by
  obtain ⟨o, arg⟩ := r
  unfold decode RawCommand.word
  rw [opField_wordOf, argField_wordOf]
  cases o with
  | cinit => exact decodeZ_verdict rfl rfl arg
  | wbit => exact decodeB_verdict rfl rfl rfl arg
  | rbit => exact decodeZ_verdict rfl rfl arg
  | wfld => exact decodeF_verdict rfl rfl rfl rfl arg
  | rfld => exact decodeF_verdict rfl rfl rfl rfl arg
  | encb => exact decodeZ_verdict rfl rfl arg
  | decb => exact decodeZ_verdict rfl rfl arg
  | enci => exact decodeZ_verdict rfl rfl arg
  | deci => exact decodeZ_verdict rfl rfl arg
  | clrf => exact decodeZ_verdict rfl rfl arg

/-! ### Decoding and encoding (R62 to R65) -/

theorem Instr.wellFormed_eq_true (i : Instr) : i.wellFormed = true := by cases i <;> rfl

theorem decode_encode (i : Instr) : decode (encode i) = .legal i := by
  cases i with
  | wbit v => cases v <;> rfl
  | _ => rfl

/-- A word whose operation code R63 assigns is the word of a raw command. -/
theorem exists_raw_of_code {word : Byte} {o : Operation} (h : (opField word).toNat = o.code.toNat) :
    ∃ r : RawCommand, r.word = word :=
  ⟨⟨o, argField word⟩, by rw [RawCommand.word, ← BitVec.eq_of_toNat_eq h, wordOf_fields]⟩

theorem exists_raw_of_decode_legal {word : Byte} {i : Instr} (h : decode word = .legal i) :
    ∃ r : RawCommand, r.word = word := by
  unfold decode at h
  split at h
  next hop => exact exists_raw_of_code (o := .cinit) hop
  next hop => exact exists_raw_of_code (o := .wbit) hop
  next hop => exact exists_raw_of_code (o := .rbit) hop
  next hop => exact exists_raw_of_code (o := .wfld) hop
  next hop => exact exists_raw_of_code (o := .rfld) hop
  next hop => exact exists_raw_of_code (o := .encb) hop
  next hop => exact exists_raw_of_code (o := .decb) hop
  next hop => exact exists_raw_of_code (o := .enci) hop
  next hop => exact exists_raw_of_code (o := .deci) hop
  next hop => exact exists_raw_of_code (o := .clrf) hop
  next => exact nomatch h

theorem encode_of_decode_legal {word : Byte} {i : Instr} (h : decode word = .legal i) : encode i = word := by
  obtain ⟨r, rfl⟩ := exists_raw_of_decode_legal h
  have hr := decode_verdict r
  rw [h] at hr
  obtain ⟨hi⟩ := hr
  exact congrArg RawCommand.word hi

/-- Settles O2: the decoder undoes the encoder, and names an instruction for no word but its own. -/
theorem decodeInvertsEncode : Obligations.DecodeInvertsEncode := fun i _ =>
  ⟨fun h => ⟨i.wellFormed_eq_true, encode_of_decode_legal h⟩, fun ⟨_, h⟩ => h ▸ decode_encode i⟩

theorem encode_mem_legalWords (i : Instr) : encode i ∈ Machine.legalWords := by
  cases i with
  | wbit v => cases v <;> decide
  | _ => decide

/-- Settles O1: the 15 words are the encoder's, and a word the decoder accepts is one of the encoder's. -/
theorem writtenOutWordsDecode : Obligations.WrittenOutWordsDecode := by
  refine ⟨decode_encode .cinit, decode_encode (.wbit false), decode_encode (.wbit true), decode_encode .rbit,
    decode_encode .wfld8, decode_encode .wfld16, decode_encode .wfld64, decode_encode .rfld8,
    decode_encode .rfld16, decode_encode .rfld64, decode_encode .encb, decode_encode .decb,
    decode_encode .enci, decode_encode .deci, decode_encode .clrf, fun word hword => ?_⟩
  cases hd : decode word with
  | legal i => exact absurd (encode_of_decode_legal hd ▸ encode_mem_legalWords i) hword
  | illegal why => exact ⟨why, rfl⟩

/-! ### The operand bits (R62, R65) -/

theorem Instr.raw_wellFormed (i : Instr) : i.raw.wellFormed = true := by
  cases i with
  | wbit v => exact EncodesWellFormed.wbit v
  | _ => rfl

theorem wellFormed_of_reservedWidth {r : RawCommand} (hf : r.operation.format = .f) (harg : r.arg = 0b0011#4) :
    r.wellFormed = false :=
  (wellFormed_of_f hf r.arg).trans (by rw [harg]; rfl)

namespace Verdict
variable {r : RawCommand} {d : Decoded}

theorem wellFormed_iff (h : Verdict r d) : r.wellFormed = true ↔ ∃ i : Instr, d = .legal i ∧ i.raw = r := by
  cases h with
  | legal hi => exact ⟨fun _ => ⟨_, rfl, hi⟩, fun _ => hi ▸ Instr.raw_wellFormed _⟩
  | nonzeroBits hr => simp [hr]
  | reservedWidth hf harg => simp [wellFormed_of_reservedWidth hf harg]

theorem reservedWidth_iff (h : Verdict r d) :
    d = .illegal .reservedWidth ↔ r.operation.format = .f ∧ r.arg = 0b0011#4 := by
  cases h with
  | @legal i hi =>
    refine ⟨nofun, fun ⟨hf, harg⟩ => ?_⟩
    have hwf := i.raw_wellFormed
    rw [hi, wellFormed_of_reservedWidth hf harg] at hwf
    exact nomatch hwf
  | nonzeroBits _ hwidth => exact ⟨nofun, fun h => absurd h hwidth⟩
  | reservedWidth hf harg => exact ⟨fun _ => ⟨hf, harg⟩, fun _ => rfl⟩

theorem ne_unassignedOperation (h : Verdict r d) : d ≠ .illegal .unassignedOperation := by
  cases h <;> exact nofun

end Verdict

/-- Settles O3: the three clauses are what a right verdict says. -/
theorem decoderChecksOperandBits : Obligations.DecoderChecksOperandBits := fun r =>
  have hr := decode_verdict r
  ⟨hr.wellFormed_iff, hr.reservedWidth_iff, hr.ne_unassignedOperation⟩

end Sys2Proof
end

section
/-! The cursor commands (R86 to R88) and the coordinates of the cursor (R89): the tests a command begins with,
the one bit a bit operation is about, and the statements of spec/40_cursor.md. -/

namespace Sys2Proof.Machine

section
variable {α : Type} {s : State}

/-! ### The tests a command begins with (R81, R87) -/

theorem configCheck_bind_legal (h : LegalConfig s) (next : Unit → State → Flow α) :
    (configCheck s).bind next = next () s := by
  rw [configCheck_ok (badConfig_eq_false h), Flow.bind]

theorem configCheck_bind_illegal (h : ¬ LegalConfig s) (next : Unit → State → Flow α) :
    (configCheck s).bind next = .raised .badConfig s := by
  rw [configCheck_bad (badConfig_eq_true h), Flow.bind]

theorem requireCursor_bind_live (h : s.cvalid = true) (next : Unit → State → Flow α) :
    (requireCursor s).bind next = next () s := by
  rw [requireCursor_ok h, Flow.bind]

theorem requireCursor_bind_none (h : s.cvalid = false) (next : Unit → State → Flow α) :
    (requireCursor s).bind next = .raised .noCursor s := by
  rw [requireCursor_none h, Flow.bind]

end

/-- Every command that opens a session begins with `ConfigCheck()` (R86, R111, R112, R121, R122). -/
theorem exec_begins_configCheck {i : Instr} (hi : i ∈ [Instr.cinit, .encb, .decb, .enci, .deci]) (s : State) :
    ∃ next, exec i s = endCommand ((configCheck s).bind next) := by
  simp only [List.mem_cons, List.not_mem_nil, or_false] at hi
  obtain rfl | rfl | rfl | rfl | rfl := hi
  all_goals exact ⟨_, rfl⟩

/-- A bit command begins with the test for a live cursor, and the bit operation after it raises on an exhausted
one (R87, R88, C4). -/
theorem exec_bit_begins_requireCursor {i : Instr} (hi : i ∈ [Instr.wbit false, .wbit true, .rbit]) (s : State) :
    ∃ next, exec i s = endCommand ((requireCursor s).bind next) ∧
      (s.exh = true → next () s = .raised .capacityExhausted s) := by
  simp only [List.mem_cons, List.not_mem_nil, or_false] at hi
  obtain rfl | rfl | rfl := hi
  · exact ⟨_, rfl, fun he => writeBit_exhausted he false⟩
  · exact ⟨_, rfl, fun he => writeBit_exhausted he true⟩
  · exact ⟨_, rfl, fun he => by rw [readBit_exhausted he, Flow.bind]⟩

/-- Settles O15: `ConfigCheck()` passes, and the session opens. -/
theorem cinitOpensSession : Obligations.CinitOpensSession := by
  intro s h
  rw [exec, execCinit, configCheck_bind_legal h]
  rfl

/-- Settles O16: the five commands begin with `ConfigCheck()`, which raises. -/
theorem illegalConfigurationIsRefused : Obligations.IllegalConfigurationIsRefused := by
  intro s h i hi
  obtain ⟨next, hexec⟩ := exec_begins_configCheck hi s
  rw [hexec, configCheck_bind_illegal h]
  rfl

/-- Settles O19: the cursor is tested before its exhaustion, and both before any access. -/
theorem bitCommandsFault : Obligations.BitCommandsFault := by
  intro s i hi
  obtain ⟨next, hexec, hexhausted⟩ := exec_bit_begins_requireCursor hi s
  refine ⟨fun hv => ?_, fun hv he => ?_⟩
  · rw [hexec, requireCursor_bind_none hv]
    rfl
  · rw [hexec, requireCursor_bind_live hv, hexhausted he]
    rfl

/-! ### The position and its coordinates (R15, R41) -/

section
variable {s : State} (hc : CursorOk s)
include hc

/-- R41: the pixel of the cell under the cursor, row by row. -/
theorem raddr_div_c : raddr s / s.c.toNat = s.row.toNat * s.w.toNat + s.col.toNat := by
  rw [raddr, Nat.mul_comm, Nat.mul_add_div (Nat.zero_lt_of_lt hc.chan_lt), Nat.div_eq_of_lt hc.chan_lt, Nat.add_zero]

theorem raddr_mod_c : raddr s % s.c.toNat = s.chan.toNat := by
  rw [raddr, Nat.mul_comm, Nat.mul_add_mod, Nat.mod_eq_of_lt hc.chan_lt]

theorem raddr_col : raddr s / s.c.toNat % s.w.toNat = s.col.toNat := by
  rw [raddr_div_c hc, Nat.mul_comm, Nat.mul_add_mod, Nat.mod_eq_of_lt hc.col_lt]

theorem raddr_row : raddr s / (s.w.toNat * s.c.toNat) = s.row.toNat := by
  rw [Nat.mul_comm, ← Nat.div_div_eq_div_mul, raddr_div_c hc, Nat.mul_comm,
    Nat.mul_add_div (Nat.zero_lt_of_lt hc.col_lt), Nat.div_eq_of_lt hc.col_lt, Nat.add_zero]

/-- The one position of the stream that a bit operation is about is the cell and the plane of the cursor. -/
theorem cell_position_cursor (he : s.exh = false) {a : Nat} (ha : a < cells s) (i : Nat) :
    i * cells s + a = pos s ↔ a = raddr s ∧ i = s.plane.toNat := by
  rw [cell_position ha, pos_mod hc he, pos_div hc he]

theorem streamBit_pos (he : s.exh = false) : streamBit s (pos s) = rasterBit s (raddr s) s.plane.toNat := by
  rw [streamBit, pos_mod hc he, pos_div hc he]

end

/-- Settles O20: the position is `PLANE * N + RADDR()` with `RADDR() < N`, and `RADDR()` is a number in the mixed
radix of the dimensions. -/
theorem cursorCoordinatesFollowPosition : Obligations.CursorCoordinatesFollowPosition := by
  intro s hs hv he
  have hc := hs.live hv
  exact ⟨pos_lt hc he, (pos_div hc he).symm, (pos_mod hc he).symm, (raddr_row hc).symm, (raddr_col hc).symm,
    (raddr_mod_c hc).symm⟩

/-! ### One bit is written (R82, R87) -/

/-- R82, R43: a run of one `WriteBit` writes the bit under the cursor and no other. -/
theorem Wrote.rasterBit_one {s t : State} {v : Bool} (h : Wrote s t 1 fun _ => v) (hc : CursorOk s)
    (he : s.exh = false) (a : Nat) {i : Nat} (hi : i < 8) :
    rasterBit t a i = if a = raddr s ∧ i = s.plane.toNat then v else rasterBit s a i := by
  rw [h.bits a i hi]
  refine if_congr ⟨fun ⟨ha, hle, hlt⟩ => (cell_position_cursor hc he ha i).mp (by omega), fun hcur => ?_⟩ rfl rfl
  have ha : a < cells s := hcur.1 ▸ raddr_lt hc
  have hpos := (cell_position_cursor hc he ha i).mpr hcur
  exact ⟨ha, by omega, by omega⟩

/-- Settles O17: `WBIT v` succeeds with what one `WriteBit` leaves. -/
theorem wbitWritesOneBit : Obligations.WbitWritesOneBit := by
  intro s v hs hv he
  have hc := hs.live hv
  obtain ⟨u, hu, hw⟩ := writeBit_ok hc he v
  have hbit := hw.rasterBit_one hc he
  refine ⟨succeed u, ?_, congrArg succeed hw.only, hw.pos, ?_, fun i hi hne => ?_, fun a ha => ?_,
    readByte_congr .payload hw.only.payload⟩
  · rw [exec, execWbit, requireCursor_bind_live hv, hu, endCommand]
  · exact (hbit (raddr s) s.plane.isLt).trans (if_pos ⟨rfl, rfl⟩)
  · exact (hbit (raddr s) hi).trans (if_neg fun h => hne h.2)
  · exact BitVec.eq_of_getLsbD_eq fun i hi => (hbit a hi).trans (if_neg fun h => ha h.1)

/-! ### One bit is read (R83, R88) -/

theorem OnlyCursor.readByte {s t : State} (h : OnlyCursor s t) (sp : Space) (a : Nat) :
    readByte sp a t = readByte sp a s := by
  cases sp with
  | raster => exact readByte_congr .raster h.raster a
  | payload => exact readByte_congr .payload h.onlyBits.payload a

/-- Settles O18: `RBIT` succeeds with what one `ReadBit` leaves and the bit it returned. -/
theorem rbitReadsOneBit : Obligations.RbitReadsOneBit := by
  intro s hs hv he
  have hc := hs.live hv
  obtain ⟨u, hu, hm⟩ := readBit_ok hc he
  rw [streamBit_pos hc he] at hu
  refine ⟨succeed { u with bitq := rasterBit s (raddr s) s.plane.toNat }, ?_, ?_, hm.pos, hm.only.readByte⟩
  · rw [exec, execRbit, requireCursor_bind_live hv, hu]
    rfl
  · exact congrArg (fun w => succeed { w with bitq := rasterBit s (raddr s) s.plane.toNat }) hm.only

end Sys2Proof.Machine
end

section
/-! The field commands (R102 to R104): what `WFLD` and `RFLD` do at any width with a live cursor, when the
positions suffice and when they run out, and the statements of spec/41_field.md. -/

namespace Sys2Proof.Machine

/-! ### The commands of each width (R64) -/

theorem exec_wfld {p : Instr × Nat} (hp : p ∈ [(Instr.wfld8, 8), (.wfld16, 16), (.wfld64, 64)]) (s : State) :
    exec p.1 s = endCommand (writeField p.2 s) := by
  simp only [List.mem_cons, List.not_mem_nil, or_false] at hp
  obtain rfl | rfl | rfl := hp
  all_goals rfl

theorem exec_rfld {p : Instr × Nat} (hp : p ∈ [(Instr.rfld8, 8), (.rfld16, 16), (.rfld64, 64)]) (s : State) :
    exec p.1 s = endCommand (readField p.2 s) := by
  simp only [List.mem_cons, List.not_mem_nil, or_false] at hp
  obtain rfl | rfl | rfl := hp
  all_goals rfl

/-- The field read fits `FLD`. -/
theorem rfld_width_le : ∀ p ∈ [(Instr.rfld8, 8), (.rfld16, 16), (.rfld64, 64)], p.2 ≤ 64 := by decide

/-- A command to write and a command to read of one width. -/
theorem mem_of_field_pair :
    ∀ p ∈ [(Instr.wfld8, Instr.rfld8, 8), (.wfld16, .rfld16, 16), (.wfld64, .rfld64, 64)],
      (p.1, p.2.2) ∈ [(Instr.wfld8, 8), (.wfld16, 16), (.wfld64, 64)] ∧
      p.2 ∈ [(Instr.rfld8, 8), (.rfld16, 16), (.rfld64, 64)] := by decide

/-- A field command begins with the test for a live cursor (R102, R103). -/
theorem exec_field_begins_requireCursor {i : Instr}
    (hi : i ∈ [Instr.wfld8, .wfld16, .wfld64, .rfld8, .rfld16, .rfld64]) (s : State) :
    ∃ next, exec i s = endCommand ((requireCursor s).bind next) := by
  simp only [List.mem_cons, List.not_mem_nil, or_false] at hi
  obtain rfl | rfl | rfl | rfl | rfl | rfl := hi
  all_goals exact ⟨_, rfl⟩

/-- Settles O25: the test for a live cursor raises before the field is touched. -/
theorem fieldCommandsNeedCursor : Obligations.FieldCommandsNeedCursor := by
  intro s hv i hi
  obtain ⟨next, hexec⟩ := exec_field_begins_requireCursor hi s
  rw [hexec, requireCursor_bind_none hv]
  rfl

/-! ### A field of any width, with a live cursor -/

section
variable {s : State} {n : Nat} (hc : CursorOk s) (hv : s.cvalid = true)
include hc hv

/-- R102: `n` positions left, so `FLD[n-1:0]` is written, most significant bit first. -/
theorem writeField_ok (hfit : pos s + n ≤ capacity s) :
    ∃ u, writeField n s = .ok () u ∧ Wrote s u n fun j => s.fld.getLsbD (n - 1 - j) := by
  rw [capacity_eq] at hfit
  obtain ⟨u, hu, hw⟩ := putField_ok hc hfit (s.fld.toNat % 2 ^ n)
  exact ⟨u, by rw [writeField, requireCursor_bind_live hv, hu], hw.congr fun j hj => fieldBit_fld s hj⟩

/-- R102, R144: the top bits of `FLD[n-1:0]` fill the positions left, and the next bit raises. -/
theorem writeField_exhausted (hfit : capacity s < pos s + n) :
    ∃ u, writeField n s = .raised .capacityExhausted u ∧ u.exh = true ∧
      Wrote s u (capacity s - pos s) fun j => s.fld.getLsbD (n - 1 - j) := by
  rw [capacity_eq] at hfit ⊢
  obtain ⟨u, hu, he, hw⟩ := putField_exhausted hc hfit (s.fld.toNat % 2 ^ n)
  exact ⟨u, by rw [writeField, requireCursor_bind_live hv, hu], he,
    hw.congr fun j hj => fieldBit_fld s (by omega)⟩

/-- R103: `n` positions left, so `FLD` takes the field at the cursor. -/
theorem readField_ok (hfit : pos s + n ≤ capacity s) :
    ∃ u, readField n s = .ok () { u with fld := BitVec.ofNat 64 (streamField s (pos s) n) } ∧ Moved s u n := by
  rw [capacity_eq] at hfit
  obtain ⟨u, hu, hm⟩ := getField_ok hc hfit
  exact ⟨u, by rw [readField, requireCursor_bind_live hv, hu, Flow.bind], hm⟩

/-- R103: the positions left are consumed, and the next bit raises before `FLD` is written. -/
theorem readField_exhausted (hfit : capacity s < pos s + n) :
    ∃ u, readField n s = .raised .capacityExhausted u ∧ u.exh = true ∧ Moved s u (capacity s - pos s) := by
  rw [capacity_eq] at hfit ⊢
  obtain ⟨u, hu, he, hm⟩ := getField_exhausted hc hfit
  exact ⟨u, by rw [readField, requireCursor_bind_live hv, hu, Flow.bind], he, hm⟩

end

/-! ### A field is written (R102) -/

/-- Settles O21: `WFLD n` succeeds with what `n` `WriteBit`s leave. -/
theorem wfldWritesField : Obligations.WfldWritesField := by
  intro s hs hv p hp hfit
  obtain ⟨u, hu, hw⟩ := writeField_ok (hs.live hv) hv hfit
  refine ⟨succeed u, ?_, congrArg succeed hw.only, hw.pos, hw.bits, fun a ha => hw.bits.byte_frame ha,
    readByte_congr .payload hw.only.payload⟩
  rw [exec_wfld hp, hu, endCommand]

/-- Settles O22: the `WriteBit`s that succeeded leave an exhausted cursor at `(0,0,0,7)`, and taking the fault
keeps it and the raster. -/
theorem wfldRunsOutPartWay : Obligations.WfldRunsOutPartWay := by
  intro s hs hv p hp hfit
  obtain ⟨u, hu, he, hw⟩ := writeField_exhausted (hs.live hv) hv hfit
  have hend := hw.only.eqAtEnd he (hw.atEnd hs.exhausted he)
  refine ⟨takeFault .capacityExhausted u, ?_, congrArg (takeFault .capacityExhausted) hend, hw.bits⟩
  rw [exec_wfld hp, hu, endCommand]

/-! ### A field is read (R103) -/

section
variable {n : Nat} (s : State) (p : Nat)

/-- R101: the first bit read is bit `n - 1` of the register. -/
theorem ofNat_streamField_getLsbD (hn : n ≤ 64) {j : Nat} (hj : j < n) :
    (BitVec.ofNat 64 (streamField s p n)).getLsbD (n - 1 - j) = streamBit s (p + j) := by
  rw [BitVec.getLsbD_ofNat, decide_eq_true (by omega), Bool.true_and, streamField_testBit s p n j hj]

/-- R103: bits `63:n` of the register become 0. -/
theorem ofNat_streamField_getLsbD_high {j : Nat} (hj : n ≤ j) :
    (BitVec.ofNat 64 (streamField s p n)).getLsbD j = false := by
  have hlt : streamField s p n < 2 ^ j :=
    Nat.lt_of_lt_of_le (streamField_lt s p n) (Nat.pow_le_pow_right (by decide) hj)
  rw [BitVec.getLsbD_ofNat, Nat.testBit_lt_two_pow hlt, Bool.and_false]

/-- R103: no bit of the field is lost in the register. -/
theorem ofNat_streamField_toNat (hn : n ≤ 64) : (BitVec.ofNat 64 (streamField s p n)).toNat = streamField s p n :=
  Nat.mod_eq_of_lt <|
    Nat.lt_of_lt_of_le (streamField_lt s p n) (Nat.pow_le_pow_right (by decide) hn)

end

/-- Settles O23: `RFLD n` succeeds with what `n` `ReadBit`s leave and the field they returned. -/
theorem rfldReadsField : Obligations.RfldReadsField := by
  intro s hs hv p hp hfit
  obtain ⟨u, hu, hm⟩ := readField_ok (hs.live hv) hv hfit
  refine ⟨succeed { u with fld := BitVec.ofNat 64 (streamField s (pos s) p.2) }, ?_, ?_, hm.pos,
    fun j hj => ofNat_streamField_getLsbD s (pos s) (rfld_width_le p hp) hj,
    fun j hj => ofNat_streamField_getLsbD_high s (pos s) hj, hm.only.readByte⟩
  · rw [exec_rfld hp, hu, endCommand]
  · exact congrArg (fun w => succeed { w with fld := BitVec.ofNat 64 (streamField s (pos s) p.2) }) hm.only

/-- Settles O24: the `ReadBit`s that succeeded move the cursor alone, to `(0,0,0,7)`. -/
theorem rfldRunsOutPartWay : Obligations.RfldRunsOutPartWay := by
  intro s hs hv p hp hfit
  obtain ⟨u, hu, he, hm⟩ := readField_exhausted (hs.live hv) hv hfit
  rw [exec_rfld hp, hu, endCommand, hm.only.eqAtEnd he (hm.atEnd hs.exhausted he)]
  rfl

/-! ### A field is read back (R104) -/

/-- A `CINIT` that ends with `OK` has opened a session over a legal configuration (R86). -/
theorem exec_cinit_ok {s a : State} (h : exec .cinit s = .next a) (ha : a.status = .ok) :
    LegalConfig s ∧ a = succeed (openSession s) := by
  by_cases hl : LegalConfig s
  · rw [exec, execCinit, configCheck_bind_legal hl] at h
    exact ⟨hl, (Host.Outcome.next.inj h).symm⟩
  · rw [exec, execCinit, configCheck_bind_illegal hl] at h
    obtain rfl := Host.Outcome.next.inj h
    exact nomatch ha

/-- A fresh cursor over a legal configuration is within its bounds (R80, R81). -/
theorem cursorOk_fresh {s : State} (h : LegalConfig s) : CursorOk (succeed (openSession s)) := by
  obtain ⟨hrow, hcol, hchan, hfits⟩ := CursorOk.openSession (badConfig_eq_false h)
  exact ⟨hrow, hcol, hchan, hfits⟩

theorem OnlyBits.capacity {s t : State} (h : OnlyBits s t) : capacity t = capacity s := by
  rw [capacity_eq, h.cells, capacity_eq]

/-- A field write that ends with `OK` had positions enough, and has written the field (R102). -/
theorem exec_wfld_ok {s t : State} {p : Instr × Nat} (hp : p ∈ [(Instr.wfld8, 8), (.wfld16, 16), (.wfld64, 64)])
    (hc : CursorOk s) (hv : s.cvalid = true) (h : exec p.1 s = .next t) (ht : t.status = .ok) :
    ∃ u, t = succeed u ∧ pos s + p.2 ≤ capacity s ∧ Wrote s u p.2 fun j => s.fld.getLsbD (p.2 - 1 - j) := by
  rw [exec_wfld hp] at h
  by_cases hfit : pos s + p.2 ≤ capacity s
  · obtain ⟨u, hu, hw⟩ := writeField_ok hc hv hfit
    rw [hu, endCommand] at h
    exact ⟨u, (Host.Outcome.next.inj h).symm, hfit, hw⟩
  · obtain ⟨u, hu, -⟩ := writeField_exhausted hc hv (Nat.lt_of_not_le hfit)
    rw [hu, endCommand] at h
    obtain rfl := Host.Outcome.next.inj h
    exact nomatch ht

/-- The stream holds the field that was written (R104). -/
theorem Wrote.streamField_fld {s t : State} {n : Nat} (h : Wrote s t n fun j => s.fld.getLsbD (n - 1 - j))
    (hfit : Sys2Proof.Machine.pos s + n ≤ capacity s) :
    streamField t (Sys2Proof.Machine.pos s) n = s.fld.toNat % 2 ^ n := by
  rw [capacity_eq] at hfit
  refine streamField_eq (Nat.mod_lt _ (Nat.two_pow_pos n)) fun j hj => ?_
  rw [h.bits.streamBit h.only.cells hfit hj, fieldBit_fld s hj]

/-- Settles O26: the second session's cursor stands where the first one's did, over the raster that one left. -/
theorem fieldRoundTrip : Obligations.FieldRoundTrip := by
  intro s a b c p hp hsa ha hab hb hbc
  obtain ⟨hwrite, hread⟩ := mem_of_field_pair p hp
  obtain ⟨hlegal, rfl⟩ := exec_cinit_ok hsa ha
  obtain ⟨u, rfl, hfit, hw⟩ := exec_wfld_ok hwrite (cursorOk_fresh hlegal) rfl hab hb
  have hlegal' : LegalConfig (succeed u) := by
    obtain ⟨hwidth, hheight, hchannels, -, -, hsize, -⟩ := engineKeepsConfiguration _ _ _ hab
    exact hlegal.congr hwidth hheight hchannels hsize
  obtain rfl : c = succeed (openSession (succeed u)) :=
    Host.Outcome.next.inj (hbc.symm.trans (cinitOpensSession _ hlegal'))
  have hpos : pos (succeed (openSession (succeed u))) = pos (succeed (openSession s)) :=
    (pos_openSession _).trans (pos_openSession s).symm
  have hfit' : pos (succeed (openSession (succeed u))) + p.2.2 ≤ capacity (succeed (openSession (succeed u))) := by
    rw [hpos]
    exact hfit.trans_eq hw.only.capacity.symm
  have hstream : ∀ q n, streamField (succeed (openSession (succeed u))) q n = streamField u q n :=
    streamField_congr rfl rfl
  obtain ⟨v, hv, -⟩ := readField_ok (cursorOk_fresh hlegal') rfl hfit'
  refine ⟨_, by rw [exec_rfld hread, hv, endCommand], rfl, ?_⟩
  calc (BitVec.ofNat 64 (streamField (succeed (openSession (succeed u))) _ p.2.2)).toNat
      = streamField (succeed (openSession (succeed u))) _ p.2.2 :=
        ofNat_streamField_toNat _ _ (rfld_width_le _ hread)
    _ = streamField u (pos (succeed (openSession s))) p.2.2 := by rw [hpos, hstream]
    _ = s.fld.toNat % 2 ^ p.2.2 := hw.streamField_fld hfit

end Sys2Proof.Machine
end

section
/-! What the codec commands share (R111, R112, R121, R122): the tests before a session, the first field a fresh
session reads, and the bytes extracted behind a header. -/

namespace Sys2Proof.Machine

/-! ### Runs of a session (R80, R18) -/

theorem CursorOk.fresh {s : State} (h : LegalConfig s) : CursorOk (Sys2Proof.Machine.openSession s) :=
  .openSession (badConfig_eq_false h)

/-- Writing `STATE` beside a run of `WriteBit`s changes nothing of what the run leaves. -/
theorem Wrote.withSession {s t : State} {n : Nat} {f : Nat → Bool} (h : Wrote s t n f) (v : Session) :
    Wrote (setSession v s) (setSession v t) n f where
  ok := ⟨h.ok.row_lt, h.ok.col_lt, h.ok.chan_lt, h.ok.fits⟩
  pos := h.pos
  atEnd := h.atEnd
  only := congrArg (setSession v) h.only
  bits := h.bits

theorem Moved.withSession {s t : State} {n : Nat} (h : Moved s t n) (v : Session) :
    Moved (setSession v s) (setSession v t) n where
  ok := ⟨h.ok.row_lt, h.ok.col_lt, h.ok.chan_lt, h.ok.fits⟩
  pos := h.pos
  atEnd := h.atEnd
  only := congrArg (setSession v) h.only

/-- Writing `LEN` beside a run of `ReadBit`s changes nothing of what the run leaves. -/
theorem Moved.withLen {s t : State} {n : Nat} (h : Moved s t n) (v : Quad) :
    Moved { s with len := v } { t with len := v } n where
  ok := ⟨h.ok.row_lt, h.ok.col_lt, h.ok.chan_lt, h.ok.fits⟩
  pos := h.pos
  atEnd := h.atEnd
  only := congrArg (fun u : State => ({ u with len := v } : State)) h.only

/-- A test that does not raise: the next line sees the same state. -/
theorem raiseIf_bind_false {α : Type} {b : Bool} (h : b = false) (k : Cause) (s : State)
    (next : Unit → State → Flow α) : (raiseIf b k s).bind next = next () s := by
  rw [raiseIf_false h, Flow.bind]

theorem raiseIf_bind_true {α : Type} {b : Bool} (h : b = true) (k : Cause) (s : State)
    (next : Unit → State → Flow α) : (raiseIf b k s).bind next = .raised k s := by
  rw [raiseIf_true h, Flow.bind]

/-- R84: the cursor is exhausted exactly when it stands at the capacity. -/
theorem exh_iff_capacity {s t : State} {n : Nat} (hc : CursorOk t) (hn : cells t = cells s) (hp : pos t = n) :
    t.exh = true ↔ n = capacity s := by
  rw [exh_iff_pos hc, hp, hn, capacity_eq]

/-! ### The first field of a session (R101, R112, R122) -/

section
variable {s : State} {n : Nat} (hl : LegalConfig s)
include hl

theorem getField_fresh_ok (hfit : n ≤ capacity s) :
    ∃ u, getField n (openSession s) = .ok (streamField s 0 n) u ∧ Moved (openSession s) u n := by
  rw [capacity_eq] at hfit
  obtain ⟨u, hu, hm⟩ := getField_ok (n := n) (.fresh hl) (by rwa [pos_openSession, Nat.zero_add])
  rw [pos_openSession, streamField_congr (s := s) (t := openSession s) rfl rfl] at hu
  exact ⟨u, hu, hm⟩

/-- A carrier with fewer than `n` positions is consumed whole, and nothing but the cursor has moved. -/
theorem getField_fresh_exhausted (hfit : capacity s < n) :
    getField n (openSession s) = .raised .capacityExhausted
      { openSession s with row := 0#16, col := 0#16, chan := 0#8, plane := 7#3, exh := true } := by
  rw [capacity_eq] at hfit
  obtain ⟨u, hu, he, hm⟩ := getField_exhausted (n := n) (.fresh hl) (by rwa [pos_openSession, Nat.zero_add])
  rw [hu]
  exact congrArg (Flow.raised .capacityExhausted) (hm.only.eqAtEnd he (hm.atEnd nofun he))

end

/-! ### A decoded body (R112, R122) -/

theorem Extracted.congr {s s' t : State} {p n : Nat} (h : Extracted s' t p n) (hr : s'.raster = s.raster)
    (hp : s'.payload = s.payload) (hn : cells s' = cells s) : Extracted s t p n := fun k => by
  rw [h k, streamField_congr hr hn, readByte_congr .payload hp]

/-- Bytes received after a header was read are extracted from behind the header. -/
theorem Received.extracted {s v t : State} {n m : Nat} (h : Received v t 0 m) (hm : Moved s v n) :
    Extracted s t (Sys2Proof.Machine.pos s + n) m := fun k => by
  rw [h.bytes, hm.pos, streamField_congr hm.only.raster hm.only.cells, hm.only.readByte, Nat.sub_zero]
  exact if_congr (by omega) rfl rfl

end Sys2Proof.Machine
end

section
/-! The opaque-payload commands (R111 to R113): the frame `ENCB` embeds, the header and the body `DECB` reads, and the
statements of spec/42_codec_bytes.md. -/

namespace Sys2Proof.Machine

/-! ### `ENCB` (R111) -/

/-- A fresh session at `BODY`, which `ENCB` reaches once the header is written (R111 step 4). -/
def bodySession (s : State) : State := setSession .body (openSession s)

theorem pos_bodySession (s : State) : pos (bodySession s) = 0 := pos_openSession s

section
variable {s : State}

/-- R111: whether the frame of `LEN` payload bytes lies within the carrier. -/
theorem insufficient_eq_false (hfit : s.len.toNat * 8 + 64 ≤ capacity s) :
    decide (capacity s < needBytes s.len.toNat) = false := decide_eq_false (Nat.not_lt.mpr hfit)

theorem insufficient_eq_true (hfit : capacity s < s.len.toNat * 8 + 64) :
    decide (capacity s < needBytes s.len.toNat) = true := decide_eq_true hfit

/-- R111 steps 2 to 4: the header and the payload bytes are one run of `WriteBit`s, that of the frame (R67). -/
theorem exec_encb_fits (hl : LegalConfig s) (hp : FitsPayload s s.len.toNat)
    (hfit : s.len.toNat * 8 + 64 ≤ capacity s) :
    ∃ w, exec .encb s = .next (succeed (closeSession w)) ∧
      Wrote (bodySession s) w (s.len.toNat * 8 + 64) (bytesFrameBit s) := by
  have hcap := hfit
  rw [capacity_eq] at hcap
  obtain ⟨u, hu, hheader⟩ := putField_ok (n := 64) (.fresh hl)
    (by rw [pos_openSession, cells_openSession]; omega) s.len.toNat
  replace hheader : Wrote (bodySession s) (setSession .body u) 64 _ := hheader.withSession .body
  have hlen : u.len = s.len := hheader.only.len
  obtain ⟨w, hw, hbody⟩ := putPayload_ok (n := s.len.toNat) (k := 0) hheader.ok
    (fun j hj => by
      rw [hheader.only.pbufSize, Nat.zero_add]
      exact inSpace_of_fits hp hj)
    (by
      rw [hheader.pos, pos_bodySession, hheader.only.cells]
      exact le_trans (by omega) hcap)
  refine ⟨w, ?_, ?_⟩
  · rw [exec, execEncb, configCheck_bind_legal hl, raiseIf_bind_false (exceeds_eq_false hp),
      raiseIf_bind_false (insufficient_eq_false hfit), hu, Flow.bind, hlen]
    exact congrArg (fun x => endCommand (x.bind fun _ s => .ok () (closeSession s))) hw
  · rw [show s.len.toNat * 8 + 64 = 64 + 8 * s.len.toNat by omega]
    refine (hheader.trans hbody).congr fun j _ => ?_
    rw [bytesFrameBit, Nat.zero_add, readByte_congr .payload hheader.only.payload]
    rfl

end

/-- What may change from the session's start to the end of the frame, register by register. -/
theorem OnlyBits.body_eq {s w : State} (h : OnlyBits (bodySession s) w) :
    w = { s with row := w.row, col := w.col, chan := w.chan, plane := w.plane, exh := w.exh, raster := w.raster,
                 cvalid := true, session := .body } := h

/-- Settles O27: the run of the frame starts at position 0. -/
theorem encbEmbedsFrame : Obligations.EncbEmbedsFrame := by
  intro s hl hp hfit
  obtain ⟨w, hexec, hw⟩ := exec_encb_fits hl hp hfit
  have hpos := hw.pos
  have hbits := hw.bits
  rw [pos_bodySession] at hpos hbits
  rw [Nat.zero_add] at hpos
  have hexh : w.exh = true ↔ s.len.toNat * 8 + 64 = capacity s := exh_iff_capacity hw.ok hw.only.cells hpos
  refine ⟨_, hexec, congrArg (fun u => succeed (closeSession u)) hw.only.body_eq, hpos, hexh, hbits,
    fun a ha => hbits.byte_frame fun j hj => ?_, readByte_congr .payload hw.only.payload⟩
  rw [Nat.zero_add]
  exact ha j hj

/-- Settles O28: both tests come before the session opens. -/
theorem encbPrechecks : Obligations.EncbPrechecks := by
  intro s hl
  refine ⟨fun hp => ?_, fun hp hfit => ?_⟩
  · rw [exec, execEncb, configCheck_bind_legal hl, raiseIf_bind_true (exceeds_eq_true hp)]
    rfl
  · rw [exec, execEncb, configCheck_bind_legal hl, raiseIf_bind_false (exceeds_eq_false hp),
      raiseIf_bind_true (insufficient_eq_true hfit)]
    rfl

/-! ### `DECB` (R112) -/

/-- A fresh session with the header's length in `LEN` and `STATE` at `HEADER` (R112 step 2). -/
def lengthSession (s : State) : State :=
  setSession .header { openSession s with len := BitVec.ofNat 64 (streamField s 0 64) }

theorem pos_lengthSession (s : State) : pos (lengthSession s) = 0 := pos_openSession s

/-- What `DECB` does once the length `l` is read (R112 steps 3 to 5). -/
def decbAfterHeader (l : Nat) (s : State) : Flow Unit :=
  if plausibleLength l s.lenlim then
    (raiseIf (exceeds s.pbufSize l) .payloadRange s).bind fun _ s =>
    (loop l getPayloadByte (setSession .body s)).bind fun _ s =>
    .ok () (closeSession s)
  else .ambiguous s

theorem plausibleLength_iff {l : Nat} {lenlim : Quad} :
    plausibleLength l lenlim = true ↔ 0 < l ∧ l < lenlim.toNat := decide_eq_true_iff

section
variable {v : State} {l : Nat}

theorem decbAfterHeader_ambiguous (hlen : ¬ (0 < l ∧ l < v.lenlim.toNat)) : decbAfterHeader l v = .ambiguous v :=
  if_neg (mt plausibleLength_iff.mp hlen)

theorem decbAfterHeader_payloadRange (hlen : 0 < l ∧ l < v.lenlim.toNat) (hp : ¬ FitsPayload v l) :
    decbAfterHeader l v = .raised .payloadRange v := by
  rw [decbAfterHeader, if_pos (plausibleLength_iff.mpr hlen), raiseIf_bind_true (exceeds_eq_true hp)]

theorem decbAfterHeader_body (hlen : 0 < l ∧ l < v.lenlim.toNat) (hp : FitsPayload v l) :
    decbAfterHeader l v =
      (loopFrom 0 l getPayloadByte (setSession .body v)).bind fun _ s => .ok () (closeSession s) := by
  rw [decbAfterHeader, if_pos (plausibleLength_iff.mpr hlen), raiseIf_bind_false (exceeds_eq_false hp), loop]

end

/-- The header of a fresh session is read: `DECB` goes on at position 64 with the cursor alone moved. -/
theorem exec_decb_header {s : State} (hl : LegalConfig s) (hcap : 64 ≤ capacity s) :
    ∃ v, exec .decb s = endCommand (decbAfterHeader (streamField s 0 64) v) ∧ Moved (lengthSession s) v 64 := by
  obtain ⟨u, hu, hm⟩ := getField_fresh_ok hl hcap
  refine ⟨_, ?_, (hm.withLen (BitVec.ofNat 64 (streamField s 0 64))).withSession .header⟩
  rw [exec, execDecb, configCheck_bind_legal hl, hu]
  rfl

section
variable {s v : State} (hm : Moved (lengthSession s) v 64)
include hm

theorem Moved.pos_header : Sys2Proof.Machine.pos v = 64 := by
  rw [hm.pos, pos_lengthSession]

theorem Moved.lenlim_header : v.lenlim = s.lenlim :=
  (congrArg State.lenlim hm.only).trans rfl

theorem Moved.len_header : v.len.toNat = streamField s 0 64 := by
  rw [congrArg State.len hm.only]
  exact ofNat_streamField_toNat s 0 (le_refl 64)

theorem Moved.fits_header {l : Nat} : FitsPayload v l ↔ FitsPayload s l := by
  rw [FitsPayload, congrArg State.pbufSize hm.only]
  rfl

theorem Moved.readByte_header (sp : Space) (a : Nat) : readByte sp a v = readByte sp a s := by
  rw [hm.only.readByte]
  cases sp <;> rfl

end

/-- Settles O30: the header is signalled at position 64. -/
theorem decbSignalsAmbiguousHeader : Obligations.DecbSignalsAmbiguousHeader := by
  rintro s _ hl rfl hlen hcap
  obtain ⟨v, hexec, hm⟩ := exec_decb_header hl hcap
  rw [decbAfterHeader_ambiguous (by rwa [hm.lenlim_header])] at hexec
  exact ⟨_, hexec, congrArg signalAmbiguous hm.only, hm.len_header, hm.pos_header, hm.readByte_header⟩

/-- Settles O31: the session's cursor is exhausted before `LEN` is written. -/
theorem decbHeaderRunsOut : Obligations.DecbHeaderRunsOut := by
  intro s hl hcap
  rw [exec, execDecb, configCheck_bind_legal hl, getField_fresh_exhausted hl hcap]
  rfl

/-- Settles O32: the test for the payload space raises at position 64. -/
theorem decbPayloadRange : Obligations.DecbPayloadRange := by
  rintro s _ hl rfl hpos hlim hp hcap
  obtain ⟨v, hexec, hm⟩ := exec_decb_header hl hcap
  rw [decbAfterHeader_payloadRange (by rw [hm.lenlim_header]; exact ⟨hpos, hlim⟩) (mt hm.fits_header.mp hp)] at hexec
  exact ⟨_, hexec, congrArg (takeFault .payloadRange) hm.only, hm.len_header, hm.pos_header, hm.readByte_header⟩

/-- The session of `lengthSession` with `STATE` at `BODY` (R112 step 4). -/
def receiveSession (s : State) : State := setSession .body (lengthSession s)

theorem pos_receiveSession (s : State) : pos (receiveSession s) = 0 := pos_openSession s

/-- A plausible header within the payload space: the body is read from position 64 on. -/
theorem exec_decb_body {s : State} (hl : LegalConfig s) (hcap : 64 ≤ capacity s)
    (hlen : 0 < streamField s 0 64 ∧ streamField s 0 64 < s.lenlim.toNat) (hp : FitsPayload s (streamField s 0 64)) :
    ∃ v, exec .decb s = endCommand ((loopFrom 0 (streamField s 0 64) getPayloadByte v).bind fun _ s =>
        .ok () (closeSession s)) ∧
      Moved (receiveSession s) v 64 ∧ ∀ j, j < streamField s 0 64 → inSpace v.pbufSize (0 + j) = true := by
  obtain ⟨v, hexec, hm⟩ := exec_decb_header hl hcap
  have hpv := hm.fits_header.mpr hp
  rw [decbAfterHeader_body (by rwa [hm.lenlim_header]) hpv] at hexec
  refine ⟨_, hexec, hm.withSession .body, fun j hj => ?_⟩
  rw [Nat.zero_add]
  exact inSpace_of_fits hpv hj

section
variable {s v w : State} {m : Nat} (hm : Moved (receiveSession s) v 64) (hr : Received v w 0 m)
include hm

theorem Moved.pos_receive : Sys2Proof.Machine.pos v = 64 := by
  rw [hm.pos, pos_receiveSession]

theorem Moved.cells_receive : cells v = cells s := hm.only.cells.trans rfl

include hr

/-- R112: the bytes received behind the header are those of the carrier the command found. -/
theorem Received.extracted_receive : Extracted s w 64 m := by
  have h := hr.extracted hm
  rw [pos_receiveSession] at h
  exact h.congr rfl rfl rfl

theorem Received.onlyPayload_receive : OnlyPayload (receiveSession s) w := hm.only.onlyPayload.trans hr.only

end

/-- R112: whatever of the payload space is written after the header, `LEN` holds its length. -/
theorem OnlyPayload.len_receive {s w : State} (h : OnlyPayload (receiveSession s) w) :
    w.len.toNat = streamField s 0 64 := by
  rw [congrArg State.len h]
  exact ofNat_streamField_toNat s 0 (le_refl 64)

theorem OnlyPayload.raster_receive {s w : State} (h : OnlyPayload (receiveSession s) w) (a : Nat) :
    readByte .raster a w = readByte .raster a s := readByte_congr .raster h.raster a

/-- What may change from the header to the end of the body, register by register. -/
theorem OnlyPayload.receive_eq {s w : State} (h : OnlyPayload (receiveSession s) w) :
    w = { s with row := w.row, col := w.col, chan := w.chan, plane := w.plane, exh := w.exh, payload := w.payload,
                 len := BitVec.ofNat 64 (streamField s 0 64), cvalid := true, session := .body } := h

/-- Settles O29: the body's bytes are received in one run from position 64 on. -/
theorem decbReturnsPayload : Obligations.DecbReturnsPayload := by
  rintro s _ hl rfl hpos hlim hp hfit
  obtain ⟨v, hexec, hm, hin⟩ := exec_decb_body hl (le_trans (Nat.le_add_right 64 _) hfit) ⟨hpos, hlim⟩ hp
  obtain ⟨w, hw, hr⟩ := getPayload_ok hm.ok hin (by rwa [hm.pos_receive, hm.cells_receive, ← capacity_eq])
  rw [hw, Flow.bind] at hexec
  have honly := hr.onlyPayload_receive hm
  have hposw : pos w = 64 + 8 * streamField s 0 64 := by rw [hr.pos, hm.pos_receive]
  have hexh : w.exh = true ↔ 64 + 8 * streamField s 0 64 = capacity s :=
    exh_iff_capacity hr.ok (hr.only.cells.trans hm.cells_receive) hposw
  have hbytes : Extracted s w 64 (streamField s 0 64) := hr.extracted_receive hm
  exact ⟨_, hexec, congrArg (fun u => succeed (closeSession u)) honly.receive_eq, honly.len_receive, hposw, hexh,
    hbytes, honly.raster_receive⟩

/-- Settles O33: the whole bytes are received, and the cursor alone moves on to its end. -/
theorem decbBodyRunsOut : Obligations.DecbBodyRunsOut := by
  rintro s _ hl rfl hpos hlim hp hcap hfit
  obtain ⟨v, hexec, hm, hin⟩ := exec_decb_body hl hcap ⟨hpos, hlim⟩ hp
  obtain ⟨t, u, ht, he, hr, hmt⟩ := getPayload_exhausted hm.ok hin
    (by rwa [hm.pos_receive, hm.cells_receive, ← capacity_eq])
  rw [ht, Flow.bind] at hexec
  rw [hm.pos_receive, hm.cells_receive, ← capacity_eq] at hr
  have honly := (hr.onlyPayload_receive hm).trans hmt.only.onlyPayload
  have hend := honly.eqAtEnd he (hmt.atEnd (hr.atEnd (hm.atEnd nofun)) he)
  refine ⟨_, hexec, congrArg (takeFault .capacityExhausted) hend, honly.len_receive, fun k => ?_,
    honly.raster_receive⟩
  exact (hmt.only.readByte .payload k).trans (hr.extracted_receive hm k)

/-! ### The round trip (R113) -/

/-- An `ENCB` that ends with `OK` passed its three tests (R111). -/
theorem exec_encb_ok {s t : State} (h : exec .encb s = .next t) (ht : t.status = .ok) :
    LegalConfig s ∧ FitsPayload s s.len.toNat ∧ s.len.toNat * 8 + 64 ≤ capacity s := by
  have hne : ∀ k (u : State), exec .encb s ≠ .next (takeFault k u) := fun k u hk => by
    obtain rfl := Host.Outcome.next.inj (h.symm.trans hk)
    cases k <;> exact nomatch ht
  have hl : LegalConfig s := by_contra fun hl =>
    hne .badConfig s (illegalConfigurationIsRefused s hl .encb (by decide))
  have hp : FitsPayload s s.len.toNat := by_contra fun hp => hne .payloadRange s ((encbPrechecks s hl).1 hp)
  exact ⟨hl, hp, not_lt.mp fun hfit => hne .insufficientCapacity s ((encbPrechecks s hl).2 hp hfit)⟩

section
variable {s t : State} (h : Embedded s t 0 (s.len.toNat * 8 + 64) (bytesFrameBit s))
  (hn : cells t = cells s) (hfit : s.len.toNat * 8 + 64 ≤ capacity s)
include h hn hfit

/-- The header of an embedded frame is `LEN` (R67). -/
theorem Embedded.length_header : Sys2Proof.Machine.streamField t 0 64 = s.len.toNat := by
  rw [capacity_eq] at hfit
  refine h.streamField (q := 0) hn (by omega) s.len.isLt (by omega) fun j hj => ?_
  rw [bytesFrameBit, Nat.zero_add, if_pos hj]

/-- The byte behind the header of an embedded frame is the payload byte (R67). -/
theorem Embedded.payload_byte {k : Nat} (hk : k < s.len.toNat) :
    BitVec.ofNat 8 (Sys2Proof.Machine.streamField t (64 + 8 * k) 8) = readByte .payload k s := by
  rw [capacity_eq] at hfit
  have hbyte := h.streamField (q := 64 + 8 * k) hn (by omega) (readByte .payload k s).isLt (by omega) fun j hj => by
    rw [bytesFrameBit, if_neg (by omega), show (64 + 8 * k + j - 64) / 8 = k by omega,
      show (64 + 8 * k + j - 64) % 8 = j by omega]
  rw [Nat.zero_add] at hbyte
  rw [hbyte, BitVec.ofNat_toNat, BitVec.setWidth_eq]

end

/-- Settles O41: the frame that `ENCB` embedded is the header and the body that `DECB` reads. -/
theorem bytesRoundTrip : Obligations.BytesRoundTrip := by
  intro s t t' hst ht hw hh hc hrs hps hbytes
  obtain ⟨hl, hp, hfit⟩ := exec_encb_ok hst ht
  obtain ⟨t₁, hst₁, -, -, -, hframe, -⟩ := encbEmbedsFrame s hl hp hfit
  obtain rfl : t₁ = t := Host.Outcome.next.inj (hst₁.symm.trans hst)
  obtain ⟨hwt, hht, hct, -, -, hrt, hpt, -⟩ := engineKeepsConfiguration _ _ _ hst
  have hl' : LegalConfig t' := hl.congr (hw.trans hwt) (hh.trans hht) (hc.trans hct) (hrs.trans hrt)
  have hp' : FitsPayload t' s.len.toNat := by rwa [FitsPayload, hps, hpt]
  have hn : cells t₁ = cells s := cells_congr hwt hht hct
  have hn' : cells t' = cells t₁ := cells_congr hw hh hc
  have hfit' : s.len.toNat * 8 + 64 ≤ capacity t' := by rwa [capacity_eq, hn', hn, ← capacity_eq]
  have hheader : s.len.toNat = streamField t' 0 64 := by
    rw [streamField_of_bytes hbytes hn', hframe.length_header hn hfit]
  by_cases hlen : 0 < s.len.toNat ∧ s.len.toNat < t'.lenlim.toNat
  · obtain ⟨u, hu, hend, hlenu, -, -, hbody, -⟩ :=
      decbReturnsPayload t' _ hl' hheader hlen.1 hlen.2 hp' (by omega)
    refine ⟨u, hu, BitVec.eq_of_toNat_eq hlenu, fun _ => ⟨congrArg State.status hend, fun k hk => ?_⟩,
      fun h => absurd hlen h⟩
    rw [hbody k, if_pos hk, streamField_of_bytes hbytes hn', hframe.payload_byte hn hfit hk]
  · obtain ⟨u, hu, hend, hlenu, -⟩ := decbSignalsAmbiguousHeader t' _ hl' hheader hlen (by omega)
    exact ⟨u, hu, BitVec.eq_of_toNat_eq hlenu, fun h => absurd h hlen, fun _ => congrArg State.status hend⟩

end Sys2Proof.Machine
end

section
/-! The nested-image commands (R121, R122): the frame `ENCI` embeds, the header and the body `DECI` reads, and the
statements of spec/43_codec_image.md about one command. -/

namespace Sys2Proof.Machine

/-! ### `ENCI` (R121) -/

section
variable {s : State} {n : Nat} (hn : n = s.imgw.toNat * s.imgh.toNat * 3)
include hn

/-- R121: whether the frame of the grid lies within the carrier. -/
theorem insufficientImage_eq_false (hfit : n * 8 + 32 ≤ capacity s) :
    decide (capacity s < needImage s.imgw.toNat s.imgh.toNat) = false := by
  subst hn
  exact decide_eq_false (Nat.not_lt.mpr hfit)

theorem insufficientImage_eq_true (hfit : capacity s < n * 8 + 32) :
    decide (capacity s < needImage s.imgw.toNat s.imgh.toNat) = true := by
  subst hn
  exact decide_eq_true hfit

/-- R121: whether the grid lies within the payload space. -/
theorem exceedsImage_eq_false (hp : FitsPayload s n) :
    exceeds s.pbufSize (imageBytes s.imgw.toNat s.imgh.toNat) = false := by
  subst hn
  exact exceeds_eq_false hp

theorem exceedsImage_eq_true (hp : ¬ FitsPayload s n) :
    exceeds s.pbufSize (imageBytes s.imgw.toNat s.imgh.toNat) = true := by
  subst hn
  exact exceeds_eq_true hp

/-- R121 steps 2 and 3: the two dimensions and the grid's bytes are one run of `WriteBit`s, that of the frame
(R68). -/
theorem exec_enci_fits (hl : LegalConfig s) (hp : FitsPayload s n) (hfit : n * 8 + 32 ≤ capacity s) :
    ∃ w, exec .enci s = .next (succeed (closeSession w)) ∧
      Wrote (bodySession s) w (n * 8 + 32) (imageFrameBit s) := by
  have hcap := hfit
  rw [capacity_eq] at hcap
  obtain ⟨u, hu, hwidth⟩ := putField_ok (n := 16) (.fresh hl)
    (by rw [pos_openSession, cells_openSession]; omega) s.imgw.toNat
  obtain ⟨v, hv, hheight⟩ := putField_ok (n := 16) hwidth.ok
    (by rw [hwidth.pos, pos_openSession, hwidth.only.cells, cells_openSession]; omega) s.imgh.toNat
  have hheader : Wrote (bodySession s) (setSession .body v) (16 + 16) _ := (hwidth.trans hheight).withSession .body
  obtain ⟨w, hw, hbody⟩ := putPayload_ok (n := n) (k := 0) hheader.ok
    (fun j hj => by
      rw [hheader.only.pbufSize, Nat.zero_add]
      exact inSpace_of_fits hp hj)
    (by
      rw [hheader.pos, pos_bodySession, hheader.only.cells]
      exact le_trans (by omega) hcap)
  refine ⟨w, ?_, ?_⟩
  · rw [exec, execEnci, configCheck_bind_legal hl, raiseIf_bind_false (exceedsImage_eq_false hn hp),
      raiseIf_bind_false (insufficientImage_eq_false hn hfit), hu, Flow.bind, hv, Flow.bind, imageLoop_eq_loop,
      imageBytes, ← hn]
    exact congrArg (fun x => endCommand (x.bind fun _ s => .ok () (closeSession s))) hw
  · rw [show n * 8 + 32 = 16 + 16 + 8 * n by omega]
    refine (hheader.trans hbody).congr fun j _ => ?_
    rw [imageFrameBit, Nat.zero_add, readByte_congr .payload hheader.only.payload]
    by_cases h16 : j < 16
    · rw [if_pos h16, if_pos (by omega), if_pos h16]
    · rw [if_neg h16, if_neg h16]
      rfl

end

/-- Settles O34: the run of the frame starts at position 0. -/
theorem enciEmbedsFrame : Obligations.EnciEmbedsFrame := by
  intro s n hn hl hp hfit
  obtain ⟨w, hexec, hw⟩ := exec_enci_fits hn hl hp hfit
  have hpos := hw.pos
  have hbits := hw.bits
  rw [pos_bodySession] at hpos hbits
  rw [Nat.zero_add] at hpos
  have hexh : w.exh = true ↔ n * 8 + 32 = capacity s := exh_iff_capacity hw.ok hw.only.cells hpos
  refine ⟨_, hexec, congrArg (fun u => succeed (closeSession u)) hw.only.body_eq, hpos, hexh, hbits,
    fun a ha => hbits.byte_frame fun j hj => ?_, readByte_congr .payload hw.only.payload⟩
  rw [Nat.zero_add]
  exact ha j hj

/-- Settles O35: both tests come before the session opens. -/
theorem enciPrechecks : Obligations.EnciPrechecks := by
  intro s n hn hl
  refine ⟨fun hp => ?_, fun hp hfit => ?_⟩
  · rw [exec, execEnci, configCheck_bind_legal hl, raiseIf_bind_true (exceedsImage_eq_true hn hp)]
    rfl
  · rw [exec, execEnci, configCheck_bind_legal hl, raiseIf_bind_false (exceedsImage_eq_false hn hp),
      raiseIf_bind_true (insufficientImage_eq_true hn hfit)]
    rfl

/-! ### The header of `DECI` (R122) -/

section
variable {s u : State} {k n : Nat} (hu : Moved (openSession s) u k)
include hu

/-- A session's cursor stands where its reads have brought it. -/
theorem Moved.pos_open : Sys2Proof.Machine.pos u = k := by
  rw [hu.pos, pos_openSession, Nat.zero_add]

/-- R101: a later field of a session is read from where the cursor stands. -/
theorem getField_later_ok (hfit : k + n ≤ capacity s) :
    ∃ v, getField n u = .ok (streamField s k n) v ∧ Moved (openSession s) v (k + n) := by
  rw [capacity_eq] at hfit
  obtain ⟨v, hv, hm⟩ := getField_ok (n := n) hu.ok (by rwa [hu.pos_open, hu.only.cells])
  rw [hu.pos_open, streamField_congr (s := s) hu.only.raster hu.only.cells] at hv
  exact ⟨v, hv, hu.trans hm⟩

/-- A later field that does not fit consumes the positions left, and nothing but the cursor has moved. -/
theorem getField_later_exhausted (hfit : capacity s < k + n) :
    getField n u = .raised .capacityExhausted
      { openSession s with row := 0#16, col := 0#16, chan := 0#8, plane := 7#3, exh := true } := by
  rw [capacity_eq] at hfit
  obtain ⟨v, hv, he, hm⟩ := getField_exhausted (n := n) hu.ok (by rwa [hu.pos_open, hu.only.cells])
  rw [hv]
  exact congrArg (Flow.raised .capacityExhausted)
    ((hu.only.trans hm.only).eqAtEnd he (hm.atEnd (hu.atEnd nofun) he))

end

/-- Writing `IMGW` and `IMGH` beside a run of `ReadBit`s changes nothing of what the run leaves. -/
theorem Moved.withDimensions {s t : State} {n : Nat} (h : Moved s t n) (w1 h1 : Dim) :
    Moved { s with imgw := w1, imgh := h1 } { t with imgw := w1, imgh := h1 } n where
  ok := ⟨h.ok.row_lt, h.ok.col_lt, h.ok.chan_lt, h.ok.fits⟩
  pos := h.pos
  atEnd := h.atEnd
  only := congrArg (fun u : State => ({ u with imgw := w1, imgh := h1 } : State)) h.only

/-- A fresh session with the header's dimensions in `IMGW` and `IMGH` and `STATE` at `v` (R122 step 2). -/
def dimensionSession (v : Session) (s : State) : State :=
  setSession v { openSession s with
    imgw := BitVec.ofNat 16 (streamField s 0 16)
    imgh := BitVec.ofNat 16 (streamField s 16 16) }

theorem pos_dimensionSession (v : Session) (s : State) : pos (dimensionSession v s) = 0 := pos_openSession s

/-- What `DECI` does once the dimensions `w1` and `h1` are read (R122 steps 3 to 5). -/
def deciAfterHeader (w1 h1 : Nat) (s : State) : Flow Unit :=
  if plausibleWidth w1 s.wlim then
    (raiseIf (exceeds s.pbufSize (imageBytes w1 h1)) .payloadRange s).bind fun _ s =>
    (imageLoop w1 h1 getPayloadByte (setSession .body s)).bind fun _ s =>
    .ok () (closeSession s)
  else .ambiguous s

theorem plausibleWidth_iff {w1 : Nat} {wlim : Dim} :
    plausibleWidth w1 wlim = true ↔ ¬ (w1 = 0 ∨ wlim.toNat < w1) := decide_eq_true_iff

section
variable {v : State} {w1 h1 : Nat}

theorem deciAfterHeader_ambiguous (hw : w1 = 0 ∨ v.wlim.toNat < w1) : deciAfterHeader w1 h1 v = .ambiguous v :=
  if_neg fun h => plausibleWidth_iff.mp h hw

theorem deciAfterHeader_payloadRange (hw : ¬ (w1 = 0 ∨ v.wlim.toNat < w1)) (hp : ¬ FitsPayload v (w1 * h1 * 3)) :
    deciAfterHeader w1 h1 v = .raised .payloadRange v := by
  rw [deciAfterHeader, if_pos (plausibleWidth_iff.mpr hw), imageBytes, raiseIf_bind_true (exceeds_eq_true hp)]

theorem deciAfterHeader_body (hw : ¬ (w1 = 0 ∨ v.wlim.toNat < w1)) (hp : FitsPayload v (w1 * h1 * 3)) :
    deciAfterHeader w1 h1 v =
      (loopFrom 0 (w1 * h1 * 3) getPayloadByte (setSession .body v)).bind fun _ s => .ok () (closeSession s) := by
  rw [deciAfterHeader, if_pos (plausibleWidth_iff.mpr hw), imageBytes, raiseIf_bind_false (exceeds_eq_false hp),
    imageLoop_eq_loop, loop, imageBytes]

end

/-- The header of a fresh session is read: `DECI` goes on at position 32 with the cursor alone moved. -/
theorem exec_deci_header {s : State} (hl : LegalConfig s) (hcap : 32 ≤ capacity s) :
    ∃ v, exec .deci s = endCommand (deciAfterHeader (streamField s 0 16) (streamField s 16 16) v) ∧
      Moved (dimensionSession .header s) v 32 := by
  obtain ⟨u, hu, hwidth⟩ := getField_fresh_ok (n := 16) hl (by omega)
  obtain ⟨v, hv, hheight⟩ := getField_later_ok (n := 16) hwidth (by omega)
  refine ⟨_, ?_, (hheight.withDimensions (BitVec.ofNat 16 (streamField s 0 16))
    (BitVec.ofNat 16 (streamField s 16 16))).withSession .header⟩
  rw [exec, execDeci, configCheck_bind_legal hl, hu, Flow.bind, hv]
  rfl

/-- Settles O38: whichever of the two fields does not fit, the session's cursor is exhausted before `IMGW` and `IMGH`
are written. -/
theorem deciHeaderRunsOut : Obligations.DeciHeaderRunsOut := by
  intro s hl hcap
  rw [exec, execDeci, configCheck_bind_legal hl]
  by_cases hfit : 16 ≤ capacity s
  · obtain ⟨u, hu, hwidth⟩ := getField_fresh_ok (n := 16) hl hfit
    rw [hu, Flow.bind, getField_later_exhausted (n := 16) hwidth hcap]
    rfl
  · rw [getField_fresh_exhausted (n := 16) hl (Nat.lt_of_not_le hfit)]
    rfl

/-! ### What the session of `DECI` leaves (R122) -/

/-- R101: a register of the field's width holds the field. -/
theorem toNat_ofNat_streamField (s : State) (p n : Nat) :
    (BitVec.ofNat n (streamField s p n)).toNat = streamField s p n :=
  (BitVec.toNat_ofNat _ _).trans (Nat.mod_eq_of_lt (streamField_lt s p n))

section
variable {s t : State} {v : Session} (h : OnlyPayload (dimensionSession v s) t)
include h

/-- What may change from the header on, register by register. -/
theorem OnlyPayload.dimension_eq :
    t = { s with row := t.row, col := t.col, chan := t.chan, plane := t.plane, exh := t.exh, payload := t.payload,
                 imgw := BitVec.ofNat 16 (streamField s 0 16), imgh := BitVec.ofNat 16 (streamField s 16 16),
                 cvalid := true, session := v } := h

theorem OnlyPayload.imgw_dimension : t.imgw.toNat = streamField s 0 16 := by
  rw [congrArg State.imgw h]
  exact toNat_ofNat_streamField s 0 16

theorem OnlyPayload.imgh_dimension : t.imgh.toNat = streamField s 16 16 := by
  rw [congrArg State.imgh h]
  exact toNat_ofNat_streamField s 16 16

theorem OnlyPayload.raster_dimension (a : Nat) : readByte .raster a t = readByte .raster a s :=
  readByte_congr .raster h.raster a

theorem OnlyPayload.wlim_dimension : t.wlim = s.wlim := (congrArg State.wlim h).trans rfl

theorem OnlyPayload.fits_dimension {n : Nat} : FitsPayload t n ↔ FitsPayload s n := by
  rw [FitsPayload, congrArg State.pbufSize h]
  rfl

end

section
variable {s u : State} {v : Session} (hm : Moved (dimensionSession v s) u 32)
include hm

theorem Moved.pos_dimension : Sys2Proof.Machine.pos u = 32 := by
  rw [hm.pos, pos_dimensionSession]

theorem Moved.cells_dimension : cells u = cells s := hm.only.cells.trans rfl

/-- The header alone writes no memory. -/
theorem Moved.readByte_dimension (sp : Space) (a : Nat) : readByte sp a u = readByte sp a s := by
  rw [hm.only.readByte]
  cases sp <;> rfl

/-- R122: the bytes received behind the header are those of the carrier the command found. -/
theorem Received.extracted_dimension {w : State} {m : Nat} (hr : Received u w 0 m) : Extracted s w 32 m := by
  have h := hr.extracted hm
  rw [pos_dimensionSession] at h
  exact h.congr rfl rfl rfl

end

/-! ### The filter and the payload test (R122 step 3) -/

/-- Settles O37: the header is signalled at position 32. -/
theorem deciSignalsAmbiguousHeader : Obligations.DeciSignalsAmbiguousHeader := by
  rintro s _ _ hl rfl rfl hw hcap
  obtain ⟨v, hexec, hm⟩ := exec_deci_header hl hcap
  have honly := hm.only.onlyPayload
  rw [deciAfterHeader_ambiguous (by rwa [honly.wlim_dimension])] at hexec
  exact ⟨_, hexec, congrArg signalAmbiguous hm.only, honly.imgw_dimension, honly.imgh_dimension, hm.pos_dimension,
    hm.readByte_dimension⟩

/-- Settles O39: the test for the payload space raises at position 32. -/
theorem deciPayloadRange : Obligations.DeciPayloadRange := by
  rintro s _ _ hl rfl rfl hw hp hcap
  obtain ⟨v, hexec, hm⟩ := exec_deci_header hl hcap
  have honly := hm.only.onlyPayload
  rw [deciAfterHeader_payloadRange (by rwa [honly.wlim_dimension]) (mt honly.fits_dimension.mp hp)] at hexec
  exact ⟨_, hexec, congrArg (takeFault .payloadRange) hm.only, honly.imgw_dimension, honly.imgh_dimension,
    hm.pos_dimension, hm.readByte_dimension⟩

/-! ### The body of `DECI` (R122 step 4) -/

/-- A plausible header within the payload space: the body is read from position 32 on. -/
theorem exec_deci_body {s : State} {n : Nat} (hn : n = streamField s 0 16 * streamField s 16 16 * 3)
    (hl : LegalConfig s) (hcap : 32 ≤ capacity s)
    (hw : ¬ (streamField s 0 16 = 0 ∨ s.wlim.toNat < streamField s 0 16)) (hp : FitsPayload s n) :
    ∃ v, exec .deci s = endCommand ((loopFrom 0 n getPayloadByte v).bind fun _ s => .ok () (closeSession s)) ∧
      Moved (dimensionSession .body s) v 32 ∧ ∀ j, j < n → inSpace v.pbufSize (0 + j) = true := by
  subst hn
  obtain ⟨v, hexec, hm⟩ := exec_deci_header hl hcap
  have honly := hm.only.onlyPayload
  have hpv := honly.fits_dimension.mpr hp
  rw [deciAfterHeader_body (by rwa [honly.wlim_dimension]) hpv] at hexec
  refine ⟨_, hexec, hm.withSession .body, fun j hj => ?_⟩
  rw [Nat.zero_add]
  exact inSpace_of_fits hpv hj

/-- Settles O36: the grid's bytes are received in one run from position 32 on. -/
theorem deciReturnsGrid : Obligations.DeciReturnsGrid := by
  rintro s _ _ hl rfl rfl hw hp hfit
  obtain ⟨v, hexec, hm, hin⟩ := exec_deci_body rfl hl (le_trans (Nat.le_add_right 32 _) hfit) hw hp
  obtain ⟨t, ht, hr⟩ := getPayload_ok hm.ok hin (by rwa [hm.pos_dimension, hm.cells_dimension, ← capacity_eq])
  rw [ht, Flow.bind] at hexec
  have honly := hm.only.onlyPayload.trans hr.only
  have hpos : pos t = 32 + 8 * (streamField s 0 16 * streamField s 16 16 * 3) := by rw [hr.pos, hm.pos_dimension]
  have hexh := exh_iff_capacity hr.ok (hr.only.cells.trans hm.cells_dimension) hpos
  have hbytes := Received.extracted_dimension hm hr
  exact ⟨_, hexec, congrArg (fun u => succeed (closeSession u)) honly.dimension_eq, honly.imgw_dimension,
    honly.imgh_dimension, hpos, hexh, hbytes, honly.raster_dimension⟩

/-- Settles O40: the whole bytes are received, and the cursor alone moves on to its end. -/
theorem deciBodyRunsOut : Obligations.DeciBodyRunsOut := by
  rintro s _ _ hl rfl rfl hw hp hcap hfit
  obtain ⟨v, hexec, hm, hin⟩ := exec_deci_body rfl hl hcap hw hp
  obtain ⟨t, u, ht, he, hr, hmt⟩ := getPayload_exhausted hm.ok hin
    (by rwa [hm.pos_dimension, hm.cells_dimension, ← capacity_eq])
  rw [ht, Flow.bind] at hexec
  rw [hm.pos_dimension, hm.cells_dimension, ← capacity_eq] at hr
  have honly := (hm.only.onlyPayload.trans hr.only).trans hmt.only.onlyPayload
  have hend := honly.eqAtEnd he (hmt.atEnd (hr.atEnd (hm.atEnd nofun)) he)
  refine ⟨_, hexec, congrArg (takeFault .capacityExhausted) hend, honly.imgw_dimension, honly.imgh_dimension,
    fun k => ?_, honly.raster_dimension⟩
  exact (hmt.only.readByte .payload k).trans (Received.extracted_dimension hm hr k)

end Sys2Proof.Machine
end

section
/-! What a frame reads back as in a later session over the same carrier: the round trip of the nested image (R123), and
each of the two frames read as the other (R124, R69). -/

namespace Sys2Proof.Machine

/-! ### A frame in the carrier of a later session -/

/-- `t'` finds the carrier as `t` left it: the dimensions, the size of the space and every byte. -/
structure SameCarrier (t t' : State) : Prop where
  w : t'.w = t.w
  h : t'.h = t.h
  c : t'.c = t.c
  rasterSize : t'.rasterSize = t.rasterSize
  bytes : ∀ a, readByte .raster a t' = readByte .raster a t

/-- `t'` finds the carrier of `s` with the `n` bits of `f` embedded from position 0 on. -/
structure HoldsFrame (s t' : State) (n : Nat) (f : Nat → Bool) : Prop where
  legal : LegalConfig t'
  cells : cells t' = cells s
  fits : n ≤ capacity t'
  bits : Embedded s t' 0 n f

/-- The frame a command embedded is there for a later session over the same carrier. -/
theorem holdsFrame_of_exec {i : Instr} {s t t' : State} {n : Nat} {f : Nat → Bool} (hst : exec i s = .next t)
    (hl : LegalConfig s) (hfit : n ≤ capacity s) (hbits : Embedded s t 0 n f) (hsame : SameCarrier t t') :
    HoldsFrame s t' n f := by
  obtain ⟨hw, hh, hc, -, -, hr, -⟩ := engineKeepsConfiguration _ _ _ hst
  obtain ⟨hw', hh', hc', hr', hbytes⟩ := hsame
  have hn : cells t' = cells s := cells_congr (hw'.trans hw) (hh'.trans hh) (hc'.trans hc)
  refine ⟨hl.congr (hw'.trans hw) (hh'.trans hh) (hc'.trans hc) (hr'.trans hr), hn, ?_, fun a i hi => ?_⟩
  · rwa [capacity_eq, hn, ← capacity_eq]
  · rw [← hbits a i hi, rasterBit, hbytes, rasterBit]

/-- A field of the frame is a field of the stream (R47). -/
theorem HoldsFrame.streamField {s t' : State} {n : Nat} {f : Nat → Bool} (h : HoldsFrame s t' n f) {q m v : Nat}
    (hv : v < 2 ^ m) (hq : q + m ≤ n) (hf : ∀ j, j < m → f (q + j) = fieldBit m v j) :
    Sys2Proof.Machine.streamField t' q m = v := by
  have hfit := h.fits
  rw [capacity_eq, h.cells] at hfit
  rw [← h.bits.streamField h.cells (by omega) hv hq hf, Nat.zero_add]

/-- A command that ended with `OK` did not raise (R143). -/
theorem exec_ne_takeFault {i : Instr} {s t : State} (h : exec i s = .next t) (ht : t.status = .ok) (k : Cause)
    (u : State) : exec i s ≠ .next (takeFault k u) := fun hk => by
  obtain rfl := Host.Outcome.next.inj (h.symm.trans hk)
  cases k <;> exact nomatch ht

/-- The frame of an `ENCB` that ended with `OK` (R67). -/
theorem exec_encb_holdsFrame {s t t' : State} (hst : exec .encb s = .next t) (ht : t.status = .ok)
    (hsame : SameCarrier t t') : HoldsFrame s t' (s.len.toNat * 8 + 64) (bytesFrameBit s) := by
  obtain ⟨hl, hp, hfit⟩ := exec_encb_ok hst ht
  obtain ⟨t₁, hst₁, -, -, -, hbits, -⟩ := encbEmbedsFrame s hl hp hfit
  obtain rfl : t₁ = t := Host.Outcome.next.inj (hst₁.symm.trans hst)
  exact holdsFrame_of_exec hst hl hfit hbits hsame

section
variable {s t : State} {n : Nat} (hn : n = s.imgw.toNat * s.imgh.toNat * 3)
  (hst : exec .enci s = .next t) (ht : t.status = .ok)
include hn hst ht

/-- An `ENCI` that ends with `OK` passed its three tests (R121). -/
theorem exec_enci_ok : LegalConfig s ∧ FitsPayload s n ∧ n * 8 + 32 ≤ capacity s := by
  have hne := exec_ne_takeFault hst ht
  have hl : LegalConfig s := by_contra fun hl =>
    hne .badConfig s (illegalConfigurationIsRefused s hl .enci (by decide))
  obtain ⟨hrange, hcapacity⟩ := enciPrechecks s n hn hl
  have hp : FitsPayload s n := by_contra fun hp => hne .payloadRange s (hrange hp)
  exact ⟨hl, hp, not_lt.mp fun hfit => hne .insufficientCapacity s (hcapacity hp hfit)⟩

/-- The frame of an `ENCI` that ended with `OK` (R68). -/
theorem exec_enci_holdsFrame {t' : State} (hsame : SameCarrier t t') :
    HoldsFrame s t' (n * 8 + 32) (imageFrameBit s) := by
  obtain ⟨hl, hp, hfit⟩ := exec_enci_ok hn hst ht
  obtain ⟨t₁, hst₁, -, -, -, hbits, -⟩ := enciEmbedsFrame s n hn hl hp hfit
  obtain rfl : t₁ = t := Host.Outcome.next.inj (hst₁.symm.trans hst)
  exact holdsFrame_of_exec hst hl hfit hbits hsame

end

/-! ### The round trip (R123) -/

section
variable {s t' : State} {n : Nat} (h : HoldsFrame s t' (n * 8 + 32) (imageFrameBit s))
include h

/-- The two fields of the header are the dimensions (R68). -/
theorem HoldsFrame.image_width : Sys2Proof.Machine.streamField t' 0 16 = s.imgw.toNat :=
  h.streamField s.imgw.isLt (by omega) fun j hj => by
    rw [imageFrameBit, Nat.zero_add, if_pos hj]

theorem HoldsFrame.image_height : Sys2Proof.Machine.streamField t' 16 16 = s.imgh.toNat :=
  h.streamField s.imgh.isLt (by omega) fun j hj => by
    rw [imageFrameBit, if_neg (by omega), if_pos (by omega), Nat.add_sub_cancel_left]

/-- The byte behind the header is the payload byte (R68). -/
theorem HoldsFrame.image_byte {k : Nat} (hk : k < n) :
    BitVec.ofNat 8 (Sys2Proof.Machine.streamField t' (32 + 8 * k) 8) = readByte .payload k s := by
  have hbyte := h.streamField (q := 32 + 8 * k) (readByte .payload k s).isLt (by omega) fun j hj => by
    rw [imageFrameBit, if_neg (by omega), if_neg (by omega), show (32 + 8 * k + j - 32) / 8 = k by omega,
      show (32 + 8 * k + j - 32) % 8 = j by omega]
  rw [hbyte, BitVec.ofNat_toNat, BitVec.setWidth_eq]

end

/-- Settles O42: the frame that `ENCI` embedded is the header and the body that `DECI` reads. -/
theorem imageRoundTrip : Obligations.ImageRoundTrip := by
  intro s t t' hst ht hw hh hc hrs hps hbytes
  have hframe := exec_enci_holdsFrame rfl hst ht ⟨hw, hh, hc, hrs, hbytes⟩
  obtain ⟨-, hp, -⟩ := exec_enci_ok rfl hst ht
  have hp' : FitsPayload t' (s.imgw.toNat * s.imgh.toNat * 3) := by
    obtain ⟨-, -, -, -, -, -, hpt, -⟩ := engineKeepsConfiguration _ _ _ hst
    rwa [FitsPayload, hps, hpt]
  have hfit := hframe.fits
  by_cases hwidth : 1 ≤ s.imgw.toNat ∧ s.imgw.toNat ≤ t'.wlim.toNat
  · obtain ⟨u, hu, hend, hwu, hhu, -, -, hbody, -⟩ :=
      deciReturnsGrid t' _ _ hframe.legal hframe.image_width.symm hframe.image_height.symm (by omega) hp' (by omega)
    refine ⟨u, hu, BitVec.eq_of_toNat_eq hwu, BitVec.eq_of_toNat_eq hhu,
      fun _ => ⟨congrArg State.status hend, fun k hk => ?_⟩, fun h => absurd hwidth h⟩
    rw [hbody k, if_pos hk, hframe.image_byte hk]
  · obtain ⟨u, hu, hend, hwu, hhu, -⟩ :=
      deciSignalsAmbiguousHeader t' _ _ hframe.legal hframe.image_width.symm hframe.image_height.symm (by omega)
        (by omega)
    exact ⟨u, hu, BitVec.eq_of_toNat_eq hwu, BitVec.eq_of_toNat_eq hhu, fun h => absurd h hwidth,
      fun _ => congrArg State.status hend⟩

/-! ### Each frame read as the other (R124, R69) -/

/-- The first 16 bits of a length below `2^48` are 0. -/
theorem fieldBit_high_eq_false {v j : Nat} (hv : v < 2 ^ 48) (hj : j < 16) : fieldBit 64 v j = false :=
  Nat.testBit_lt_two_pow (Nat.lt_of_lt_of_le hv (Nat.pow_le_pow_right (by decide) (by omega)))

/-- A length below `2^48` reads as the width 0 (R69). -/
theorem HoldsFrame.bytes_width {s t' : State} (h : HoldsFrame s t' (s.len.toNat * 8 + 64) (bytesFrameBit s))
    (hlen : s.len.toNat < 2 ^ 48) : Sys2Proof.Machine.streamField t' 0 16 = 0 :=
  h.streamField (by decide) (by omega) fun j hj => by
    rw [bytesFrameBit, Nat.zero_add, if_pos (by omega), fieldBit_high_eq_false hlen hj, fieldBit, Nat.zero_testBit]

/-- Settles O43: the width `DECI` reads is the top 16 bits of `LEN`, which are 0. -/
theorem opaqueFrameIsNoImage : Obligations.OpaqueFrameIsNoImage := by
  intro s t t' hst ht hlen hw hh hc hrs hbytes
  have hframe := exec_encb_holdsFrame hst ht ⟨hw, hh, hc, hrs, hbytes⟩
  have hfit := hframe.fits
  have hwidth := hframe.bytes_width (hlen.trans (by decide))
  obtain ⟨u, hu, hend, hwu, -⟩ :=
    deciSignalsAmbiguousHeader t' 0 _ hframe.legal hwidth.symm rfl (.inl rfl) (by omega)
  exact ⟨u, hu, BitVec.eq_of_toNat_eq hwu, congrArg State.status hend, (congrArg State.flog hend).trans rfl⟩

/-- R47: two fields one after the other are one field, with the first as its high part. -/
theorem streamField_add (s : State) (p n m : Nat) :
    streamField s p (n + m) = streamField s p n * 2 ^ m + streamField s (p + n) m := by
  induction m with
  | zero => simp [streamField]
  | succ m ih =>
    rw [← Nat.add_assoc, streamField, ih, streamField, Nat.pow_succ, Nat.add_assoc p n m]
    ring

/-- The width of an image frame is the top 16 bits of the length it reads as (R69). -/
theorem HoldsFrame.image_length {s t' : State} {n : Nat} (h : HoldsFrame s t' (n * 8 + 32) (imageFrameBit s))
    (hw : 1 ≤ s.imgw.toNat) : 2 ^ 48 ≤ Sys2Proof.Machine.streamField t' 0 64 := by
  rw [show 64 = 16 + 48 from rfl, streamField_add, h.image_width]
  omega

/-- Whatever becomes of the body, `DECB` leaves the length it read in `LEN` (R112 step 2). -/
theorem exec_decb_len {s : State} (hl : LegalConfig s) (hcap : 64 ≤ capacity s) :
    ∃ u, exec .decb s = .next u ∧ u.len.toNat = streamField s 0 64 := by
  by_cases hlen : 0 < streamField s 0 64 ∧ streamField s 0 64 < s.lenlim.toNat
  · obtain ⟨hpos, hlim⟩ := hlen
    by_cases hp : FitsPayload s (streamField s 0 64)
    · by_cases hfit : 64 + 8 * streamField s 0 64 ≤ capacity s
      · obtain ⟨u, hu, -, hlenu, -⟩ := decbReturnsPayload s _ hl rfl hpos hlim hp hfit
        exact ⟨u, hu, hlenu⟩
      · obtain ⟨u, hu, -, hlenu, -⟩ := decbBodyRunsOut s _ hl rfl hpos hlim hp hcap (Nat.lt_of_not_le hfit)
        exact ⟨u, hu, hlenu⟩
    · obtain ⟨u, hu, -, hlenu, -⟩ := decbPayloadRange s _ hl rfl hpos hlim hp hcap
      exact ⟨u, hu, hlenu⟩
  · obtain ⟨u, hu, -, hlenu, -⟩ := decbSignalsAmbiguousHeader s _ hl rfl hlen hcap
    exact ⟨u, hu, hlenu⟩

/-- Settles O44: the length `DECB` reads is at least `W1 * 2^48`, and a carrier without 64 positions does not hold
its header. -/
theorem imageFrameIsNoOpaquePayload : Obligations.ImageFrameIsNoOpaquePayload := by
  intro s t t' hst ht hwidth hw hh hc hrs hbytes
  have hframe := exec_enci_holdsFrame rfl hst ht ⟨hw, hh, hc, hrs, hbytes⟩
  refine ⟨fun hcap => ?_, fun hcap => ⟨_, decbHeaderRunsOut t' hframe.legal hcap, rfl, rfl⟩⟩
  have hlen := hframe.image_length hwidth
  obtain ⟨u, hu, hlenu⟩ := exec_decb_len hframe.legal hcap
  refine ⟨u, hu, hlenu ▸ hlen, fun hlim => ?_⟩
  obtain ⟨u₁, hu₁, hend, -⟩ := decbSignalsAmbiguousHeader t' _ hframe.legal rfl (by omega) hcap
  obtain rfl : u₁ = u := Host.Outcome.next.inj (hu₁.symm.trans hu)
  exact ⟨congrArg State.status hend, (congrArg State.flog hend).trans rfl⟩

end Sys2Proof.Machine
end

section
/-! `Issue` and the housekeeping command (R130, R131): which instruction a command word runs, that `Issue` is total,
and what `CLRF` writes. -/

namespace Sys2Proof.Machine

/-- R131: a word that decodes to an instruction runs it. -/
theorem issue_of_decode_legal {word : Byte} {i : Instr} (h : decode word = .legal i) (s : State) :
    issue word s = exec i s := by
  rw [issue, h]

/-- Settles O49: a legal word's command makes no access outside a space, and every other word raises. -/
theorem issueAlwaysCompletes : Obligations.IssueAlwaysCompletes := fun _ hs word => issue_completes hs word

/-- Settles O5: the step performs the action at the head of the input, which issues the word. -/
theorem stepRunsDecodedCommand : Obligations.StepRunsDecodedCommand := by
  intro s word rest i hin hdec _
  calc step s = issue word { s with input := rest } := step_cons hin
    _ = exec i { s with input := rest } := issue_of_decode_legal hdec _

/-- R130: `CLRF` has one update, `FLOG <- 0`, and it succeeds. -/
theorem exec_clrf (s : State) : exec .clrf s = .next { s with flog := 0#8, status := .ok } := rfl

/-- Settles O45: 0xC0 is the word of `CLRF`, so issuing it is the same command. -/
theorem clrfClearsLog : Obligations.ClrfClearsLog := by
  intro s
  have hword : decode 0xC0#8 = .legal .clrf := decode_encode .clrf
  exact ⟨exec_clrf s, (issue_of_decode_legal hword s).trans (exec_clrf s)⟩

end Sys2Proof.Machine
end

section
/-! Faults and early ends (R140 to R146): what a raise writes, what an illegal word does, how an encoder may end, and
that a command which ends before its first memory write leaves both memories. -/

namespace Sys2Proof.Machine

/-! ### A raise (R142, R143) -/

/-- Settles O46: no later line runs, so the end state is `takeFault`'s, whose log has the bit of the cause's code. -/
theorem raiseEndsTheCommand : Obligations.RaiseEndsTheCommand := by
  intro k s next
  refine ⟨takeFault k s, (statusCode (causeStatus k)).toNat, rfl, ?_, rfl, rfl, fun j _ => ?_⟩
  · cases k <;> rfl
  · exact logCause_getLsbD k s.flog j

/-- R142: a word the decoder refuses, for whatever reason, raises and does nothing else. -/
theorem issue_of_decode_illegal {word : Byte} {why : IllegalWord} (h : decode word = .illegal why) (s : State) :
    issue word s = .next (takeFault .illegalCommand s) := by
  rw [issue, h, endCommand]

/-- Settles O4: the decoder refuses every word but the 15, and `IllegalCommand` has code 7. -/
theorem otherWordsRaiseIllegalCommand : Obligations.OtherWordsRaiseIllegalCommand := by
  intro s word hword
  obtain ⟨-, -, -, -, -, -, -, -, -, -, -, -, -, -, -, hother⟩ := writtenOutWordsDecode
  obtain ⟨why, hdecode⟩ := hother word hword
  exact issue_of_decode_illegal hdecode s

/-! ### The ends of an encoder (R111, R121) -/

/-- Behind `ConfigCheck()` an encoder has two tests, of `n` payload bytes and of `need` positions; one that passes
them succeeds. -/
theorem exec_encoder_tests {i : Instr} (hi : i = .encb ∨ i = .enci) {s : State} (hl : LegalConfig s) :
    ∃ n need,
      (¬ FitsPayload s n → exec i s = .next (takeFault .payloadRange s)) ∧
      (FitsPayload s n → capacity s < need → exec i s = .next (takeFault .insufficientCapacity s)) ∧
      (FitsPayload s n → need ≤ capacity s → ∃ u, exec i s = .next (succeed u)) := by
  obtain rfl | rfl := hi
  · obtain ⟨hrange, hcapacity⟩ := encbPrechecks s hl
    refine ⟨_, _, hrange, hcapacity, fun hp hfit => ?_⟩
    obtain ⟨w, hexec, -⟩ := exec_encb_fits hl hp hfit
    exact ⟨_, hexec⟩
  · obtain ⟨hrange, hcapacity⟩ := enciPrechecks s _ rfl hl
    refine ⟨_, _, hrange, hcapacity, fun hp hfit => ?_⟩
    obtain ⟨w, hexec, -⟩ := exec_enci_fits rfl hl hp hfit
    exact ⟨_, hexec⟩

/-- An encoder succeeds, or one of its three tests raises on the state it began in. -/
theorem exec_encoder_cases {i : Instr} (hi : i = .encb ∨ i = .enci) {s t : State} (h : exec i s = .next t) :
    t.status = .ok ∨ ∃ k ∈ [Cause.badConfig, .payloadRange, .insufficientCapacity], t = takeFault k s := by
  have hend : ∀ {u}, exec i s = .next u → t = u := fun hu => Host.Outcome.next.inj (h.symm.trans hu)
  by_cases hl : LegalConfig s
  · obtain ⟨n, need, hrange, hcapacity, hok⟩ := exec_encoder_tests hi hl
    by_cases hp : FitsPayload s n
    · by_cases hfit : need ≤ capacity s
      · obtain ⟨u, hu⟩ := hok hp hfit
        exact .inl (congrArg State.status (hend hu))
      · exact .inr ⟨.insufficientCapacity, by decide, hend (hcapacity hp (Nat.lt_of_not_le hfit))⟩
    · exact .inr ⟨.payloadRange, by decide, hend (hrange hp)⟩
  · have hbad : i ∈ [Instr.cinit, .encb, .decb, .enci, .deci] := by
      obtain rfl | rfl := hi <;> decide
    exact .inr ⟨.badConfig, by decide, hend (illegalConfigurationIsRefused s hl i hbad)⟩

/-- Settles O59: a raise of the three tests comes before the session opens, and none is `CapacityExhausted`. -/
theorem failingEncodeLeavesCarrier : Obligations.FailingEncodeLeavesCarrier := by
  intro i s t hi h
  obtain hok | ⟨k, hk, rfl⟩ := exec_encoder_cases hi h
  · exact ⟨by rw [hok]; decide, fun hne => absurd hok hne⟩
  · have hstatus : ∀ k ∈ [Cause.badConfig, .payloadRange, .insufficientCapacity],
        causeStatus k ≠ .capacityExhausted := by decide
    exact ⟨hstatus k hk, fun _ => ⟨fun _ => rfl, rfl, rfl, rfl, rfl, rfl⟩⟩

/-! ### Ends before the first memory write (R144) -/

/-- Both spaces hold in `u` what they held in `s`. -/
def SameMemories (s u : State) : Prop := ∀ sp, SameSpace sp s u

theorem SameMemories.refl (s : State) : SameMemories s s := fun sp => .refl sp s

/-- An update of registers leaves both spaces. -/
theorem SameMemories.frame {s u t : State} (h : SameMemories s u) (hr : t.raster = u.raster)
    (hp : t.payload = u.payload) : SameMemories s t := fun sp => (h sp).frame hr hp

/-- The outcomes a bit operation can have (R82, R83). -/
def Late (o : Status) : Prop := o = .ok ∨ o = .capacityExhausted

/-- With an outcome that no bit operation has, both memories are as they were. -/
def EarlyKeeps (s : State) (o : Status) (u : State) : Prop := ¬ Late o → SameMemories s u

section
variable {s : State}

theorem earlyKeeps_of_late {o : Status} (ho : Late o) (u : State) : EarlyKeeps s o u := fun h => absurd ho h

/-- A part of a command that works bit by bit ends late, whatever it has written. -/
theorem Flow.Ends.earlyKeeps {α : Type} {P : State → Prop} {x : Flow α} (hx : x.Ends (BitEnd P)) :
    x.Ends (EarlyKeeps s) :=
  hx.imp fun _ u h => earlyKeeps_of_late h.2 u

/-- Such a part before the rest of a command. -/
theorem Flow.Ends.bind_earlyKeeps {α : Type} {P : State → Prop} {x : Flow α} {next : α → State → Flow Unit}
    (hx : x.Ends (BitEnd P)) (hn : ∀ a u, P u → (next a u).Ends (EarlyKeeps s)) :
    (x.bind next).Ends (EarlyKeeps s) :=
  hx.bind_to (fun _ u _ h => earlyKeeps_of_late h.2 u) fun a u h => hn a u h.1

/-- A test before the first memory write, and the rest of the command. -/
theorem raiseIf_bind_earlyKeeps {b : Bool} {k : Cause} {u : State} {next : Unit → State → Flow Unit}
    (hu : SameMemories s u) (hn : (next () u).Ends (EarlyKeeps s)) :
    ((raiseIf b k u).bind next).Ends (EarlyKeeps s) := by
  unfold raiseIf
  split
  · exact fun _ => hu
  · exact hn

/-- The end of a command writes no memory (R19, R143, R146). -/
theorem endCommand_earlyKeeps {x : Flow Unit} {t : State} (h : endCommand x = .next t) (hx : x.Ends (EarlyKeeps s)) :
    EarlyKeeps s t.status t := by
  obtain ⟨u, ⟨-, rfl⟩ | ⟨k, hu, rfl⟩ | ⟨hu, rfl⟩⟩ := endCommand_next hx h
  · exact earlyKeeps_of_late (.inl rfl) _
  · exact fun hlate => (hu hlate).frame rfl rfl
  · exact fun hlate => (hu hlate).frame rfl rfl

/-! ### Each command's first memory write -/

/-- A field write tests for a cursor, and the rest of it works bit by bit (R102). -/
theorem writeField_earlyKeeps (n : Nat) : (writeField n s).Ends (EarlyKeeps s) :=
  raiseIf_bind_earlyKeeps (.refl s) <|
    (putField_ends (P := fun _ => True) (fun _ _ _ => trivial) (fun _ _ _ _ _ => trivial) trivial _).earlyKeeps

/-- An encoder's tests come before its session opens (R111, R121). -/
theorem exec_encoder_earlyKeeps {i : Instr} (hi : i = .encb ∨ i = .enci) {t : State} (h : exec i s = .next t) :
    EarlyKeeps s t.status t := by
  obtain hok | ⟨k, -, rfl⟩ := exec_encoder_cases hi h
  · exact earlyKeeps_of_late (.inl hok) t
  · exact fun _ => (SameMemories.refl s).frame rfl rfl

/-- A field read moves the cursor alone (R101). -/
theorem getField_sameMemories (n : Nat) {u : State} (hu : SameMemories s u) :
    (getField n u).Ends (BitEnd (SameMemories s)) :=
  getField_ends (fun v _ h => h.frame (stepCursor_raster v) (stepCursor_payload v)) hu

/-- One decoded byte ends as bit operations do, whatever has been written. -/
theorem getPayloadByte_bitEnd (k : Nat) (u : State) : (getPayloadByte k u).Ends (BitEnd fun _ => True) :=
  getPayloadByte_ends (fun _ _ _ => trivial) (fun _ _ _ _ _ => trivial) k trivial

/-- The body of a decoder, and the close of its session. -/
theorem Flow.Ends.bind_closeSession_earlyKeeps {P : State → Prop} {x : Flow Unit} (hx : x.Ends (BitEnd P)) :
    (x.bind fun _ u => .ok () (closeSession u)).Ends (EarlyKeeps s) :=
  hx.bind_earlyKeeps fun _ u _ => earlyKeeps_of_late (.inl rfl) (closeSession u)

/-- Behind its header `DECB` tests before it stores a byte (R112 steps 3 and 4). -/
theorem decbAfterHeader_earlyKeeps (l : Nat) {u : State} (hu : SameMemories s u) :
    (decbAfterHeader l u).Ends (EarlyKeeps s) := by
  unfold decbAfterHeader
  split
  · exact raiseIf_bind_earlyKeeps hu
      (loopFrom_ends (fun k v _ => getPayloadByte_bitEnd k v) trivial).bind_closeSession_earlyKeeps
  · exact fun _ => hu

/-- Behind its header `DECI` tests before it stores a byte (R122 steps 3 and 4). -/
theorem deciAfterHeader_earlyKeeps (w1 h1 : Nat) {u : State} (hu : SameMemories s u) :
    (deciAfterHeader w1 h1 u).Ends (EarlyKeeps s) := by
  unfold deciAfterHeader
  split
  · exact raiseIf_bind_earlyKeeps hu
      (imageLoop_ends (fun k v _ => getPayloadByte_bitEnd k v) trivial).bind_closeSession_earlyKeeps
  · exact fun _ => hu

/-- Six commands have no memory write in their pseudocode (R45, R50). -/
theorem not_writesSpace_of_mem {i : Instr} (hi : i ∈ [Instr.cinit, .rbit, .rfld8, .rfld16, .rfld64, .clrf])
    (sp : Space) : ¬ WritesSpace i sp := by
  cases sp with
  | raster =>
    have hreader : ∀ i ∈ [Instr.cinit, .rbit, .rfld8, .rfld16, .rfld64, .clrf], ¬ writesRaster i = true := by decide
    exact hreader i hi
  | payload =>
    rintro (rfl | rfl)
    · exact absurd hi (by decide)
    · exact absurd hi (by decide)

/-- R144 for every command: up to its first memory write it is tests and reads, and from there on it works bit by
bit, so that it can only run out of positions or succeed. -/
theorem exec_earlyKeeps {i : Instr} {t : State} (h : exec i s = .next t) : EarlyKeeps s t.status t := by
  have hs := SameMemories.refl s
  have hopen : SameMemories s (openSession s) := hs.frame rfl rfl
  cases i with
  | cinit | rbit | rfld8 | rfld16 | rfld64 | clrf =>
    exact fun _ sp => exec_sameSpace h (not_writesSpace_of_mem (by decide) sp)
  | wbit v =>
    exact endCommand_earlyKeeps h <| raiseIf_bind_earlyKeeps hs
      (writeBit_ends (P := fun _ => True) (fun _ _ _ => trivial) (fun _ _ _ _ _ => trivial) trivial v).earlyKeeps
  | wfld8 => exact endCommand_earlyKeeps h (writeField_earlyKeeps 8)
  | wfld16 => exact endCommand_earlyKeeps h (writeField_earlyKeeps 16)
  | wfld64 => exact endCommand_earlyKeeps h (writeField_earlyKeeps 64)
  | encb => exact exec_encoder_earlyKeeps (.inl rfl) h
  | enci => exact exec_encoder_earlyKeeps (.inr rfl) h
  | decb =>
    exact endCommand_earlyKeeps h <| raiseIf_bind_earlyKeeps hs <|
      (getField_sameMemories 64 hopen).bind_earlyKeeps fun l _ hu => decbAfterHeader_earlyKeeps l (hu.frame rfl rfl)
  | deci =>
    exact endCommand_earlyKeeps h <| raiseIf_bind_earlyKeeps hs <|
      (getField_sameMemories 16 hopen).bind_earlyKeeps fun w1 _ hv =>
      (getField_sameMemories 16 hv).bind_earlyKeeps fun h1 _ hu => deciAfterHeader_earlyKeeps w1 h1 (hu.frame rfl rfl)

end

/-- Settles O58: none of the five outcomes is one of a bit operation. -/
theorem earlyEndsLeaveMemories : Obligations.EarlyEndsLeaveMemories := by
  intro i s t h ht sp
  have hearly : ∀ o ∈ [Status.noCursor, .badConfig, .payloadRange, .insufficientCapacity, .ambiguousHeader],
      ¬ (o = .ok ∨ o = .capacityExhausted) := by decide
  exact readByte_congr sp (exec_earlyKeeps h (hearly t.status ht) sp)

end Sys2Proof.Machine
end

section
/-! Reset (R170 to R172): what the reset event sets and what it leaves, how each command ends in the state it leaves,
and that the model's reset state meets the invariant. -/

namespace Sys2Proof.Machine

/-! ### The registers and the memories (R170, R171) -/

/-- The model's reset state is one that a reset event leaves. -/
theorem resetEvent_reset : resetEvent State.reset = State.reset := rfl

@[simp] theorem resetEvent_w (s : State) : (resetEvent s).w = 0#16 := rfl
@[simp] theorem resetEvent_plane (s : State) : (resetEvent s).plane = 0#3 := rfl
@[simp] theorem resetEvent_cvalid (s : State) : (resetEvent s).cvalid = false := rfl
@[simp] theorem memoryOf_resetEvent (sp : Space) (s : State) : memoryOf sp (resetEvent s) = memoryOf sp s := by
  cases sp <;> rfl

/-- R16: `MASK` is a view of `PLANE`, which a reset clears. -/
theorem hostRead_mask_resetEvent (s : State) : hostRead 0x0C#8 (resetEvent s) = 1#64 := by
  obtain ⟨hmask, -⟩ := registerPortReadsFlagsAndCodes (resetEvent s)
  rw [resetEvent_plane] at hmask
  exact BitVec.eq_of_toNat_eq hmask

/-- Settles O7: the reset state is a reset event's, and a reset event takes each register from it. -/
theorem resetSetsEveryRegister : Obligations.ResetSetsEveryRegister := by
  intro s t ht
  obtain ⟨u, rfl⟩ : ∃ u, t = resetEvent u := ht.elim (fun h => ⟨s, h⟩) fun h => ⟨_, h.trans resetEvent_reset.symm⟩
  exact ⟨rfl, rfl, rfl, rfl, rfl, rfl, rfl, rfl, rfl, hostRead_mask_resetEvent u, rfl, rfl, rfl, rfl, rfl, rfl, rfl,
    rfl, rfl, rfl⟩

/-- Settles O8: the reset event takes the memories, the sizes and the input from the state it finds. -/
theorem resetLeavesMemories : Obligations.ResetLeavesMemories := fun s =>
  ⟨fun sp => readByte_congr sp (memoryOf_resetEvent sp s), rfl, rfl, rfl, rfl, rfl⟩

/-! ### The commands in the state a reset leaves (R172) -/

/-- R172, R12: the reset value of `W` is 0. -/
theorem not_legalConfig_resetEvent (s : State) : ¬ LegalConfig (resetEvent s) := by
  rintro ⟨hw, -⟩
  simp at hw

/-- R170: the log is empty, so that the first cause logged is the only one. -/
theorem resetEvent_flog_or (s : State) (b : BitVec 8) : (resetEvent s).flog ||| b = b := BitVec.zero_or

/-- Settles O9: a reset leaves no live cursor and no legal configuration, and it has cleared the log. -/
theorem commandsAfterReset : Obligations.CommandsAfterReset := by
  intro s
  have hcursor : (resetEvent s).cvalid = false := resetEvent_cvalid s
  refine ⟨fun i hi => ?_, fun i hi => ?_, exec_clrf (resetEvent s)⟩
  · have hsplit : i ∈ [Instr.wbit false, .wbit true, .rbit] ++ [.wfld8, .wfld16, .wfld64, .rfld8, .rfld16, .rfld64] := hi
    obtain hbit | hfield := List.mem_append.mp hsplit
    · rw [(bitCommandsFault (resetEvent s) i hbit).1 hcursor, resetEvent_flog_or]
      rfl
    · rw [fieldCommandsNeedCursor (resetEvent s) hcursor i hfield, resetEvent_flog_or]
      rfl
  · rw [illegalConfigurationIsRefused (resetEvent s) (not_legalConfig_resetEvent s) i hi, resetEvent_flog_or]
    rfl

/-! ### The invariant -/

/-- R171: a memory in which nothing has been written fits a space of any size. -/
theorem memoryOk_nil (size : Option Nat) : MemoryOk size [] := ⟨.nil, nofun⟩

/-- Settles O47: after reset no cursor is live or exhausted, the log is empty and no byte has been written. -/
theorem resetMeetsInvariant : Obligations.ResetMeetsInvariant where
  live := nofun
  exhausted := nofun
  session_legal := .inl rfl
  live_idle := nofun
  flog_reserved := by decide
  raster_ok := memoryOk_nil _
  payload_ok := memoryOk_nil _

end Sys2Proof.Machine
end
